-- ==== Sys2Proof/Word.lean ====
section
/-! DEFINITION. The widths of the lrvm core's words (00_scope.md R4-R6). -/

namespace Sys2Proof

/-- One byte of either address space (20_memory.md R29, R30). -/
abbrev Byte := BitVec 8

/-- A 32-bit vector: the contents of a register (00_scope.md R6) or an instruction word W (R5). -/
abbrev Word := BitVec 32

/-- A byte offset into the instruction stream as pc holds it: 32 bits, unsigned (00_scope.md R4, PCW). -/
abbrev Offset := BitVec 32

end Sys2Proof
end

