-- ==== Sys2Proof/Config.lean ====
section
/-! DEFINITION. The implementation parameters of 00_scope.md R4. -/

namespace Sys2Proof

/-- CALL_STACK_MAX, the bound on the call stack's depth (00_scope.md R4, 10_state.md R21).
DESIGN CHOICE, unsafe, entry 2: the spec gives this hardware 1024 and lets a model take any value of at least 1. -/
def Config.callStackMax : Nat := 1024

/-- MAX_PROGRAM_LEN = 2^24, the greatest length of an instruction stream (00_scope.md R4, 10_state.md R24). -/
def Config.maxProgramLen : Nat := 16777216

/-- ISA_VERSION, the version byte of a program binary (00_scope.md R4, 70_reset_and_hazards.md R129). -/
def Config.isaVersion : Byte := 0x01

/-- The four magic bytes of a program binary, ASCII "LRVM" (70_reset_and_hazards.md R129). -/
def Config.magic : List Byte := [0x4C, 0x52, 0x56, 0x4D]

/-- HEAP_MAX as the spec leaves it: an open parameter of which only HEAP_MAX <= 2^31 is known
(00_scope.md R4). It has no body, so no proof can learn its value. DESIGN CHOICE, safe, entry 1. -/
opaque Config.heapMaxOpen : Fin 2147483649

/-- HEAP_MAX, the bound on the heap's extent in bytes (00_scope.md R4, 10_state.md R23). -/
def Config.heapMax : Nat := Config.heapMaxOpen.val

end Sys2Proof
end

