-- ==== Sys2Proof/Syntax.lean ====
section
/-! DEFINITION. The instructions as syntax: one constructor per row of spec/opcode_table.json
(30_encoding.md R52, R59). -/

namespace Sys2Proof

/-- A register index, a value in 0 .. 31 (30_encoding.md R59, 10_state.md R14). The type rules out every other
index, so each value of `Instr` is an instruction the spec calls constructible. -/
abbrev Reg := Fin 32

/-- The six instruction formats (30_encoding.md R50). -/
inductive Format where
  /-- no operand -/
  | n
  /-- one register -/
  | r
  /-- two registers -/
  | rr
  /-- three registers -/
  | rrr
  /-- a register and a signed 16-bit immediate -/
  | ri
  /-- an unsigned 24-bit address -/
  | a
  deriving DecidableEq, Repr

/-- A decoded instruction (30_encoding.md R59); the operands stand in the order of the assembly form (R52). -/
inductive Instr where
  /-- `HALT`, 45_system.md R108 -/
  | halt
  /-- `LOAD $d #imm`, 44_memory_ops.md R102 -/
  | load (d : Reg) (imm : BitVec 16)
  /-- `ADD $a $b $d`, 41_arithmetic.md R83 -/
  | add (a b d : Reg)
  /-- `SUB $a $b $d`, 41_arithmetic.md R84 -/
  | sub (a b d : Reg)
  /-- `MUL $a $b $d`, 41_arithmetic.md R85 -/
  | mul (a b d : Reg)
  /-- `DIV $a $b $d`, 41_arithmetic.md R86 -/
  | div (a b d : Reg)
  /-- `JMP target`, 43_control.md R95 -/
  | jmp (target : BitVec 24)
  /-- `JMPF $r`, 43_control.md R96 -/
  | jmpf (r : Reg)
  /-- `JMPB $r`, 43_control.md R97 -/
  | jmpb (r : Reg)
  /-- `EQ $a $b`, 42_comparison.md R89 -/
  | eq (a b : Reg)
  /-- `NEQ $a $b`, 42_comparison.md R90 -/
  | neq (a b : Reg)
  /-- `GT $a $b`, 42_comparison.md R91 -/
  | gt (a b : Reg)
  /-- `LT $a $b`, 42_comparison.md R92 -/
  | lt (a b : Reg)
  /-- `GTE $a $b`, 42_comparison.md R93 -/
  | gte (a b : Reg)
  /-- `LTE $a $b`, 42_comparison.md R94 -/
  | lte (a b : Reg)
  /-- `JEQ target`, 43_control.md R98 -/
  | jeq (target : BitVec 24)
  /-- `ALOC $r`, 44_memory_ops.md R103 -/
  | aloc (r : Reg)
  /-- `INC $r`, 41_arithmetic.md R87 -/
  | inc (r : Reg)
  /-- `DEC $r`, 41_arithmetic.md R88 -/
  | dec (r : Reg)
  /-- `CALL target`, 43_control.md R99 -/
  | call (target : BitVec 24)
  /-- `RET`, 43_control.md R100 -/
  | ret
  /-- `NOP`, 45_system.md R109 -/
  | nop
  /-- `LDW $a $d`: a the address register, d the destination, 44_memory_ops.md R104 -/
  | ldw (a d : Reg)
  /-- `STW $s $a`: s the value register, a the address register, 44_memory_ops.md R105 -/
  | stw (s a : Reg)
  /-- `LDB $a $d`: a the address register, d the destination, 44_memory_ops.md R106 -/
  | ldb (a d : Reg)
  /-- `STB $s $a`: s the value register, a the address register, 44_memory_ops.md R107 -/
  | stb (s a : Reg)
  deriving DecidableEq, Repr

end Sys2Proof
end

