-- ==== Sys2Proof/WellFormed.lean ====
section
/-! DEFINITION. Which four-byte words are well formed: the checks of 30_encoding.md R53-R55, each its own.
The operands of `Instr` carry their bounds in their types (R59), so what can be ill formed is a word. The decoder
does not use this file: that it accepts exactly the well-formed words is a statement. -/

namespace Sys2Proof

/-- The four bytes of an instruction word, b0 the byte at the lowest offset (00_scope.md R5). -/
structure RawWord where
  b0 : Byte
  b1 : Byte
  b2 : Byte
  b3 : Byte
  deriving DecidableEq, Repr

/-- The format of an opcode byte; none for the illegal opcodes 0x1A .. 0xFF (30_encoding.md R52, R55). -/
def formatOf (op : Byte) : Option Format :=
  match op.toNat with
  | 0x00 | 0x14 | 0x15 => some .n
  | 0x01 => some .ri
  | 0x02 | 0x03 | 0x04 | 0x05 => some .rrr
  | 0x06 | 0x0F | 0x13 => some .a
  | 0x07 | 0x08 | 0x10 | 0x11 | 0x12 => some .r
  | 0x09 | 0x0A | 0x0B | 0x0C | 0x0D | 0x0E | 0x16 | 0x17 | 0x18 | 0x19 => some .rr
  | _ => none

/-- A register field must be less than NUM_REGS = 32 (30_encoding.md R54). -/
def regFieldOk (field : Byte) : Bool := decide (field.toNat < 32)

/-- Every register field of the format names a register (30_encoding.md R54). -/
def RawWord.registersOk (w : RawWord) : Format → Bool
  | .n | .a => true
  | .r | .ri => regFieldOk w.b1
  | .rr => regFieldOk w.b1 && regFieldOk w.b2
  | .rrr => regFieldOk w.b1 && regFieldOk w.b2 && regFieldOk w.b3

/-- Every reserved byte of the format is 0x00 (30_encoding.md R53). -/
def RawWord.reservedOk (w : RawWord) : Format → Bool
  | .n => w.b1 == 0#8 && w.b2 == 0#8 && w.b3 == 0#8
  | .r => w.b2 == 0#8 && w.b3 == 0#8
  | .rr => w.b3 == 0#8
  | .rrr | .ri | .a => true

/-- The opcode is legal (30_encoding.md R55). -/
def RawWord.opcodeOk (w : RawWord) : Bool := (formatOf w.b0).isSome

/-- All checks of 30_encoding.md R53-R55. -/
def RawWord.wellFormed (w : RawWord) : Bool :=
  match formatOf w.b0 with
  | none => false
  | some f => w.registersOk f && w.reservedOk f

end Sys2Proof
end

