-- ==== Sys2Proof/Decode.lean ====
section
/-! DEFINITION. The decoder and the encoder (30_encoding.md R48-R59), with the bit fields and the byte order
of an instruction word. -/

namespace Sys2Proof

/-- The errors of the decoder (30_encoding.md R56). -/
inductive DecodeError where
  /-- fewer than four bytes remain -/
  | truncatedInstruction
  /-- the opcode byte is 0x1A .. 0xFF (R55) -/
  | illegalOpcode
  /-- a register field of 32 or more (R54) or a reserved byte that is not 0x00 (R53) -/
  | illegalOperand
  deriving DecidableEq, Repr

/-- What the decoder answers: an instruction or exactly one error (30_encoding.md R56). -/
inductive Decoded where
  | instr (i : Instr)
  | error (e : DecodeError)
  deriving DecidableEq, Repr

/-! ### Bytes and fields of a word -/

/-- Four bytes as one word, the first byte most significant (00_scope.md R5, 20_memory.md R32, R33). -/
def wordOfBytes (b0 b1 b2 b3 : Byte) : Word := b0 ++ b1 ++ b2 ++ b3

/-- The four bytes of a word, the most significant first (00_scope.md R5, R10). -/
def bytesOfWord (w : Word) : List Byte :=
  [w.extractLsb' 24 8, w.extractLsb' 16 8, w.extractLsb' 8 8, w.extractLsb' 0 8]

/-- W[31:24], the opcode (30_encoding.md R49). -/
def opcodeField (w : Word) : Byte := w.extractLsb' 24 8

/-- W[23:16], the field rA (30_encoding.md R49). -/
def fieldA (w : Word) : Byte := w.extractLsb' 16 8

/-- W[15:8], the field rB (30_encoding.md R49). -/
def fieldB (w : Word) : Byte := w.extractLsb' 8 8

/-- W[7:0], the field rC (30_encoding.md R49). -/
def fieldC (w : Word) : Byte := w.extractLsb' 0 8

/-- W[15:0], the 16-bit immediate (30_encoding.md R49). -/
def fieldImm16 (w : Word) : BitVec 16 := w.extractLsb' 0 16

/-- W[23:0], the 24-bit address (30_encoding.md R49). -/
def fieldAddr24 (w : Word) : BitVec 24 := w.extractLsb' 0 24

/-! ### The decoder -/

/-- Go on with the register a field names; a field of 32 or more is IllegalOperand (30_encoding.md R54). -/
def withRegister (field : Byte) (k : Reg → Decoded) : Decoded :=
  if h : field.toNat < 32 then k ⟨field.toNat, h⟩ else .error .illegalOperand

/-- Go on if the reserved byte is 0x00, otherwise IllegalOperand (30_encoding.md R53). -/
def withReserved (field : Byte) (d : Decoded) : Decoded :=
  if field = 0#8 then d else .error .illegalOperand

/-- Format N: three reserved bytes (30_encoding.md R50). -/
def decodeN (w : Word) (i : Instr) : Decoded :=
  withReserved (fieldA w) (withReserved (fieldB w) (withReserved (fieldC w) (.instr i)))

/-- Format R: a register and two reserved bytes (30_encoding.md R50). -/
def decodeR (w : Word) (mk : Reg → Instr) : Decoded :=
  withRegister (fieldA w) fun a => withReserved (fieldB w) (withReserved (fieldC w) (.instr (mk a)))

/-- Format RR: two registers and a reserved byte (30_encoding.md R50). -/
def decodeRR (w : Word) (mk : Reg → Reg → Instr) : Decoded :=
  withRegister (fieldA w) fun a => withRegister (fieldB w) fun b => withReserved (fieldC w) (.instr (mk a b))

/-- Format RRR: three registers (30_encoding.md R50). -/
def decodeRRR (w : Word) (mk : Reg → Reg → Reg → Instr) : Decoded :=
  withRegister (fieldA w) fun a => withRegister (fieldB w) fun b => withRegister (fieldC w) fun c =>
    .instr (mk a b c)

/-- Format RI: a register and a 16-bit immediate (30_encoding.md R50). -/
def decodeRI (w : Word) (mk : Reg → BitVec 16 → Instr) : Decoded :=
  withRegister (fieldA w) fun a => .instr (mk a (fieldImm16 w))

/-- Format A: a 24-bit address (30_encoding.md R50). -/
def decodeA (w : Word) (mk : BitVec 24 → Instr) : Decoded := .instr (mk (fieldAddr24 w))

/-- The instruction a word stands for: the opcode first, then the register fields, then the reserved bytes
(30_encoding.md R52, R56). -/
def decodeWord (w : Word) : Decoded :=
  match (opcodeField w).toNat with
  | 0x00 => decodeN w .halt
  | 0x01 => decodeRI w .load
  | 0x02 => decodeRRR w .add
  | 0x03 => decodeRRR w .sub
  | 0x04 => decodeRRR w .mul
  | 0x05 => decodeRRR w .div
  | 0x06 => decodeA w .jmp
  | 0x07 => decodeR w .jmpf
  | 0x08 => decodeR w .jmpb
  | 0x09 => decodeRR w .eq
  | 0x0A => decodeRR w .neq
  | 0x0B => decodeRR w .gt
  | 0x0C => decodeRR w .lt
  | 0x0D => decodeRR w .gte
  | 0x0E => decodeRR w .lte
  | 0x0F => decodeA w .jeq
  | 0x10 => decodeR w .aloc
  | 0x11 => decodeR w .inc
  | 0x12 => decodeR w .dec
  | 0x13 => decodeA w .call
  | 0x14 => decodeN w .ret
  | 0x15 => decodeN w .nop
  | 0x16 => decodeRR w .ldw
  | 0x17 => decodeRR w .stw
  | 0x18 => decodeRR w .ldb
  | 0x19 => decodeRR w .stb
  | _ => .error .illegalOpcode

/-- The decoder on the bytes that stand at pc: the length check comes before everything else
(30_encoding.md R56); bytes after the first four are not read (R48). -/
def decode : List Byte → Decoded
  | b0 :: b1 :: b2 :: b3 :: _ => decodeWord (wordOfBytes b0 b1 b2 b3)
  | _ => .error .truncatedInstruction

/-! ### The encoder -/

/-- The byte of a register field (30_encoding.md R51). -/
def regByte (r : Reg) : Byte := BitVec.ofNat 8 r.val

/-- Format N (30_encoding.md R50). -/
def encodeN (op : Byte) : Word := op ++ 0#24

/-- Format R (30_encoding.md R50). -/
def encodeR (op : Byte) (a : Reg) : Word := op ++ regByte a ++ 0#16

/-- Format RR (30_encoding.md R50). -/
def encodeRR (op : Byte) (a b : Reg) : Word := op ++ regByte a ++ regByte b ++ 0#8

/-- Format RRR (30_encoding.md R50). -/
def encodeRRR (op : Byte) (a b c : Reg) : Word := op ++ regByte a ++ regByte b ++ regByte c

/-- Format RI (30_encoding.md R50). -/
def encodeRI (op : Byte) (a : Reg) (imm : BitVec 16) : Word := op ++ regByte a ++ imm

/-- Format A (30_encoding.md R50). -/
def encodeA (op : Byte) (target : BitVec 24) : Word := op ++ target

/-- The word of an instruction (30_encoding.md R52, R58). -/
def encode : Instr → Word
  | .halt => encodeN 0x00
  | .load d imm => encodeRI 0x01 d imm
  | .add a b d => encodeRRR 0x02 a b d
  | .sub a b d => encodeRRR 0x03 a b d
  | .mul a b d => encodeRRR 0x04 a b d
  | .div a b d => encodeRRR 0x05 a b d
  | .jmp t => encodeA 0x06 t
  | .jmpf r => encodeR 0x07 r
  | .jmpb r => encodeR 0x08 r
  | .eq a b => encodeRR 0x09 a b
  | .neq a b => encodeRR 0x0A a b
  | .gt a b => encodeRR 0x0B a b
  | .lt a b => encodeRR 0x0C a b
  | .gte a b => encodeRR 0x0D a b
  | .lte a b => encodeRR 0x0E a b
  | .jeq t => encodeA 0x0F t
  | .aloc r => encodeR 0x10 r
  | .inc r => encodeR 0x11 r
  | .dec r => encodeR 0x12 r
  | .call t => encodeA 0x13 t
  | .ret => encodeN 0x14
  | .nop => encodeN 0x15
  | .ldw a d => encodeRR 0x16 a d
  | .stw s a => encodeRR 0x17 s a
  | .ldb a d => encodeRR 0x18 a d
  | .stb s a => encodeRR 0x19 s a

/-- The four bytes of an instruction in stream order (30_encoding.md R58). -/
def encodeBytes (i : Instr) : List Byte := bytesOfWord (encode i)

/-- The bytes of an instruction as a raw word, for the checks of WellFormed. -/
def encodeRaw (i : Instr) : RawWord :=
  ⟨opcodeField (encode i), fieldA (encode i), fieldB (encode i), fieldC (encode i)⟩

/-! ### The host's numbering of a table row's bits -/

/-- The word a row's `nbits` bits give, every bit above them 0. The table numbers W as the spec does: bit 0 the
least significant bit of W (00_scope.md R5). -/
def tableWord (nbits w : Nat) : Word := BitVec.ofNat 32 (w % 2 ^ nbits)

/-- The instruction the decoder reads from those bits laid out as the stream holds them, most significant byte
first (00_scope.md R5). -/
def decodeTableWord (nbits w : Nat) : Option Instr :=
  match decode (bytesOfWord (tableWord nbits w)) with
  | .instr i => some i
  | .error _ => none

end Sys2Proof
end

