-- ==== Sys2Proof/Machine/State.lean ====
section
/-! DEFINITION. The machine state (10_state.md), the reasons a step can stop, and the state at power-on. -/

namespace Sys2Proof.Machine

/-- One address space: the bytes 0 .. extent-1 (20_memory.md R28-R30). A byte of the space that `cells` does not
list is 0x00, the value every byte has when the space grows (20_memory.md R37, R41); an address at or past
`extent` does not exist. The canonical form is `Memory.wf` (Machine/Ops.lean); entry 7. -/
structure Memory where
  /-- the length of the space in bytes: hlen of the heap, len of the program -/
  extent : Nat
  /-- the bytes that are not 0x00, by rising address -/
  cells : List Host.Cell
  deriving DecidableEq, Repr

/-- The halt kinds (60_exceptions.md R111). -/
inductive HaltKind where
  /-- HALT executed, or pc = len at the start of a step -/
  | normal
  /-- opcode byte 0x1A .. 0xFF -/
  | illegalOpcode
  /-- 1 to 3 bytes remain at pc -/
  | truncatedInstruction
  /-- a register field of 32 or more, or a reserved byte that is not 0 -/
  | illegalOperand
  /-- DIV with a divisor register of 0 -/
  | divisionByZero
  /-- a control target outside 0 .. len or not a multiple of 4 -/
  | jumpOutOfBounds
  /-- RET with an empty call stack -/
  | callStackUnderflow
  /-- CALL with a full call stack -/
  | callStackOverflow
  /-- a heap access outside the extent, or ALOC with a negative size or past HEAP_MAX -/
  | outOfBounds
  /-- the budget of a run is used up (40_cycle.md R79) -/
  | instructionLimitExceeded
  deriving DecidableEq, Repr

/-- The status of the machine (10_state.md R25, 40_cycle.md R78). -/
inductive Status where
  | running
  | halted (k : HaltKind)
  deriving DecidableEq, Repr

/-- The machine state: the tuple of 10_state.md with every part the spec names. -/
structure State where
  /-- x[0] .. x[31] (R14) -/
  regs : Vector Word 32
  /-- the program counter, a byte offset into the instruction stream (R17) -/
  pc : Offset
  /-- the condition flag (R20) -/
  flag : Bool
  /-- the return addresses, the top entry first; depth is its length (R21) -/
  callStack : List Offset
  /-- the heap H, its extent hlen (R23) -/
  heap : Memory
  /-- the loaded instruction stream P, its extent len (R24) -/
  prog : Memory
  /-- Running or Halted(K) (R25) -/
  status : Status
  deriving DecidableEq, Repr

/-- What stops the model outside the spec's own halts. Every exception of the spec is a halt, which is a next
state with its kind in the status (00_scope.md R11, 40_cycle.md R77), so one constructor is left. -/
inductive Fault where
  /-- Raised by `step` on a running machine whose pc is greater than len: no byte of the program stands there,
  and the decoder is defined for pc < len only (30_encoding.md R56). No run reaches such a state
  (10_state.md R19). Safe: the model stops where the spec says nothing; entry 4. -/
  | pcPastEnd
  deriving DecidableEq, Repr

/-- Why an instruction has no meaning in the model. -/
inductive Refusal where
  /-- Raised by an arm of `exec` for an instruction the model does not have yet; no arm raises it now. Safe: the
  model stops where the hardware goes on. -/
  | notModelled (mnemonic : String)
  deriving DecidableEq, Repr

/-- The state at power-on (10_state.md R27, 70_reset_and_hazards.md R128): no program, no heap, every register 0,
Running. Entry 3 says why this, and not the host's reset operation (R132, `State.hostReset`), is the model's
state after reset, and how a program comes to run. -/
def State.reset : State where
  regs := Vector.replicate 32 0
  pc := 0
  flag := false
  callStack := []
  heap := ⟨0, []⟩
  prog := ⟨0, []⟩
  status := .running

end Sys2Proof.Machine
end

