-- ==== Sys2Proof/Machine/Ops.lean ====
section
/-! DEFINITION. The operations over memory, registers, flag, pc, call stack and status that the instructions
share, and the machine's one way to take an exception, `State.raise`. -/

namespace Sys2Proof.Machine

/-- What an instruction answers. -/
abbrev Result := Host.Outcome State Fault Refusal

/-! ### Bytes of an address space -/

/-- The byte the list holds at an address; an unlisted address reads as 0x00 (20_memory.md R41). -/
def lookupCell (a : Nat) : List Host.Cell → Byte
  | [] => 0#8
  | (k, b) :: rest => if k = a then b else lookupCell a rest

/-- The list with the byte at an address replaced, kept in its one canonical form: addresses strictly rising, no
entry 0x00. -/
def putCell (a : Nat) (b : Byte) : List Host.Cell → List Host.Cell
  | [] => if b = 0#8 then [] else [(a, b)]
  | (k, c) :: rest =>
    if a < k then (if b = 0#8 then (k, c) :: rest else (a, b) :: (k, c) :: rest)
    else if a = k then (if b = 0#8 then rest else (a, b) :: rest)
    else (k, c) :: putCell a b rest

/-- The entries of a list of bytes that stand from an address on. -/
def cellsFrom (a : Nat) : List Byte → List Host.Cell
  | [] => []
  | b :: rest => if b = 0#8 then cellsFrom (a + 1) rest else (a, b) :: cellsFrom (a + 1) rest

/-- Addresses strictly rising and in lo .. hi-1, no entry 0x00. -/
def cellsWf (lo hi : Nat) : List Host.Cell → Bool
  | [] => true
  | (k, b) :: rest => decide (lo ≤ k) && decide (k < hi) && decide (b ≠ 0#8) && cellsWf (k + 1) hi rest

/-- The canonical form of an address space: every listed address inside the extent, addresses strictly rising, no
entry equal to what an unlisted address reads as. Entry 7. -/
def Memory.wf (m : Memory) : Bool := cellsWf 0 m.extent m.cells

/-- The empty address space (10_state.md R27). -/
def Memory.empty : Memory := ⟨0, []⟩

/-- The address space that holds these bytes from offset 0 on. -/
def Memory.ofBytes (bs : List Byte) : Memory := ⟨bs.length, cellsFrom 0 bs⟩

/-- The byte at an address of the space (00_scope.md R9, R10: P[a], H[a]). -/
def Memory.byte (m : Memory) (a : Nat) : Byte := lookupCell a m.cells

/-- One byte as an observer reads it: none where the space has no such address. -/
def Memory.read? (m : Memory) (a : Nat) : Option Byte := if a < m.extent then some (m.byte a) else none

/-- The n bytes from address a on, lowest address first. -/
def Memory.bytes (m : Memory) (a : Nat) : Nat → List Byte
  | 0 => []
  | n + 1 => m.byte a :: m.bytes (a + 1) n

/-- Replace one byte (00_scope.md R10). -/
def Memory.setByte (m : Memory) (a : Nat) (b : Byte) : Memory := { m with cells := putCell a b m.cells }

/-- Replace the bytes from address a on. -/
def Memory.setBytes (m : Memory) (a : Nat) : List Byte → Memory
  | [] => m
  | b :: rest => (m.setByte a b).setBytes (a + 1) rest

/-- MemRead(a, 4): big-endian (00_scope.md R10, 20_memory.md R33). -/
def Memory.readWord (m : Memory) (a : Nat) : Word :=
  wordOfBytes (m.byte a) (m.byte (a + 1)) (m.byte (a + 2)) (m.byte (a + 3))

/-- MemWrite(a, 4, v): big-endian (00_scope.md R10, 20_memory.md R33). -/
def Memory.writeWord (m : Memory) (a : Nat) (v : Word) : Memory := m.setBytes a (bytesOfWord v)

/-- Grow(n): append n bytes 0x00 (00_scope.md R10). -/
def Memory.grow (m : Memory) (n : Nat) : Memory := { m with extent := m.extent + n }

/-- The bounds check: an access of n bytes at a is legal iff 0 <= a and a + n <= extent, on unbounded integers
(20_memory.md R36). -/
abbrev Memory.inBounds (m : Memory) (a : Int) (n : Nat) : Prop := 0 ≤ a ∧ a + (n : Int) ≤ (m.extent : Int)

/-- The space with these bytes placed at an address, made longer where they need it. Only the host places bytes
so (State.withFetchWord). -/
def Memory.place (m : Memory) (a : Nat) (bs : List Byte) : Memory :=
  Memory.setBytes { m with extent := max m.extent (a + bs.length) } a bs

/-! ### Registers, flag and pc -/

/-- x[r] (00_scope.md R8). -/
def State.readReg (s : State) (r : Reg) : Word := s.regs[r.val]

/-- x[r] <- v (00_scope.md R8); no other register changes (10_state.md R14). -/
def State.writeReg (s : State) (r : Reg) (v : Word) : State := { s with regs := s.regs.set r.val v }

/-- flag <- b (00_scope.md R8). -/
def State.setFlag (s : State) (b : Bool) : State := { s with flag := b }

/-- pc <- t (00_scope.md R8). -/
def State.setPc (s : State) (t : Offset) : State := { s with pc := t }

/-- next, the address of the following instruction (00_scope.md R12). -/
def State.nextPc (s : State) : Offset := s.pc + 4

/-- pc <- next (40_cycle.md R74). -/
def State.advance (s : State) : State := s.setPc s.nextPc

/-- The state with another heap. -/
def State.setHeap (s : State) (h : Memory) : State := { s with heap := h }

/-- len, the length of the loaded stream (00_scope.md R9). -/
def State.len (s : State) : Nat := s.prog.extent

/-- hlen, the heap's extent (00_scope.md R10). -/
def State.hlen (s : State) : Nat := s.heap.extent

/-! ### Call stack -/

/-- The number of entries of the call stack (10_state.md R21). -/
def State.depth (s : State) : Nat := s.callStack.length

/-- push(v): append v as the new top entry (10_state.md R21). -/
def State.push (s : State) (v : Offset) : State := { s with callStack := v :: s.callStack }

/-- The state without the top entry (10_state.md R21). -/
def State.dropTop (s : State) : State := { s with callStack := s.callStack.tail }

/-! ### Halting: the one way the machine takes an exception -/

/-- The state in which the machine has halted: the status is set and nothing else changes; pc keeps the address of
the word that halted (00_scope.md R11, 40_cycle.md R76, R77, 60_exceptions.md R112, R117). -/
def State.halt (s : State) (k : HaltKind) : State := { s with status := .halted k }

/-- raise Halt(K) (00_scope.md R11). There is no return from it (60_exceptions.md R119): only Load and reset,
operations of the host, leave the halted state (Machine/HostInterface.lean). -/
def State.raise (s : State) (k : HaltKind) : Result := .next (s.halt k)

/-- The numeric code of a halt kind (60_exceptions.md R111). -/
def HaltKind.code : HaltKind → Nat
  | .normal => 0
  | .illegalOpcode => 1
  | .truncatedInstruction => 2
  | .illegalOperand => 3
  | .divisionByZero => 4
  | .jumpOutOfBounds => 5
  | .callStackUnderflow => 6
  | .callStackOverflow => 7
  | .outOfBounds => 8
  | .instructionLimitExceeded => 9

/-- Kinds 1 to 9 are the Error(Kind) halts, kind 0 the normal one (60_exceptions.md R111). -/
def HaltKind.isError (k : HaltKind) : Bool := decide (k ≠ .normal)

/-- The halt kind of a decode error (40_cycle.md R72). -/
def haltOfDecodeError : DecodeError → HaltKind
  | .truncatedInstruction => .truncatedInstruction
  | .illegalOpcode => .illegalOpcode
  | .illegalOperand => .illegalOperand

/-! ### Control transfer -/

/-- valid(t): 0 <= t, t <= len and t mod 4 = 0 (40_cycle.md R75). -/
abbrev State.validTarget (s : State) (t : Int) : Prop := 0 ≤ t ∧ t ≤ (s.prog.extent : Int) ∧ t % 4 = 0

/-- jump(t): the target check, then pc <- t (40_cycle.md R75). -/
def State.jump (s : State) (t : Int) : Result :=
  if s.validTarget t then .next (s.setPc (BitVec.ofInt 32 t)) else s.raise .jumpOutOfBounds

/-! ### Fetch -/

/-- The bytes of the program that a fetch at pc finds, at most four (40_cycle.md R71). -/
def State.fetch (s : State) : List Byte := s.prog.bytes s.pc.toNat (min 4 (s.prog.extent - s.pc.toNat))

end Sys2Proof.Machine
end

