-- ==== Sys2Proof/Machine/Operands.lean ====
section
/-! DEFINITION. Operand values: signed and unsigned readings, extension, truncation, truncating division
(00_scope.md R6, R7; 30_encoding.md R51) and the heap address operand with its bounds check (20_memory.md R36). -/

namespace Sys2Proof.Machine

/-- sint(v), the two's-complement value (00_scope.md R6). -/
abbrev sint (v : Word) : Int := v.toInt

/-- trunc32(i), the vector whose unsigned value is i mod 2^32 (00_scope.md R6). -/
def trunc32 (i : Int) : Word := BitVec.ofInt 32 i

/-- sext_16, the signed immediate operand (00_scope.md R6, 30_encoding.md R51). -/
def sext16 (imm : BitVec 16) : Word := imm.signExtend 32

/-- zext_24, the unsigned address operand as an unbounded integer (30_encoding.md R51, 40_cycle.md R75). -/
def zext24 (target : BitVec 24) : Int := (target.toNat : Int)

/-- zext_8, a loaded byte (00_scope.md R6, 44_memory_ops.md R106). -/
def zext8 (b : Byte) : Word := b.setWidth 32

/-- v[7:0], the byte a store of one byte writes (44_memory_ops.md R107). -/
def lowByte (v : Word) : Byte := v.extractLsb' 0 8

/-- a div b for b not 0, the quotient rounded toward zero (00_scope.md R7). -/
def divTowardZero (a b : Int) : Int := a.sign * b.sign * ((a.natAbs / b.natAbs : Nat) : Int)

/-- ea, the heap address an address register holds (20_memory.md R36). -/
abbrev State.heapAddr (s : State) (r : Reg) : Int := sint (s.readReg r)

/-- A heap access of n bytes at the address register r: go on with the address if the access is legal, otherwise
OutOfBounds with nothing written (20_memory.md R36). -/
def State.heapAccess (s : State) (r : Reg) (n : Nat) (k : Nat → State) : Result :=
  if s.heap.inBounds (s.heapAddr r) n then .next (k (s.heapAddr r).toNat) else s.raise .outOfBounds

end Sys2Proof.Machine
end

