-- ==== Sys2Proof/Machine/Arithmetic.lean ====
section
/-! DEFINITION. ADD SUB MUL DIV INC DEC (41_arithmetic.md R83-R88): the exact result on unbounded integers, its
low 32 bits written. None reads or writes the flag. -/

namespace Sys2Proof.Machine

/-- x[d] <- trunc32(i); pc <- next (41_arithmetic.md, D12). -/
def State.writeResult (s : State) (d : Reg) (i : Int) : Result := .next ((s.writeReg d (trunc32 i)).advance)

/-- ADD (41_arithmetic.md R83). -/
def execAdd (a b d : Reg) (s : State) : Result := s.writeResult d (sint (s.readReg a) + sint (s.readReg b))

/-- SUB (41_arithmetic.md R84). -/
def execSub (a b d : Reg) (s : State) : Result := s.writeResult d (sint (s.readReg a) - sint (s.readReg b))

/-- MUL (41_arithmetic.md R85). -/
def execMul (a b d : Reg) (s : State) : Result := s.writeResult d (sint (s.readReg a) * sint (s.readReg b))

/-- DIV (41_arithmetic.md R86). -/
def execDiv (a b d : Reg) (s : State) : Result :=
  if sint (s.readReg b) = 0 then s.raise .divisionByZero
  else s.writeResult d (divTowardZero (sint (s.readReg a)) (sint (s.readReg b)))

/-- INC (41_arithmetic.md R87). -/
def execInc (r : Reg) (s : State) : Result := s.writeResult r (sint (s.readReg r) + 1)

/-- DEC (41_arithmetic.md R88). -/
def execDec (r : Reg) (s : State) : Result := s.writeResult r (sint (s.readReg r) - 1)

end Sys2Proof.Machine
end

