-- ==== Sys2Proof/Machine/Flags.lean ====
section
/-! DEFINITION. The condition flag: the six comparisons of two registers (42_comparison.md), signed
where they order (D15), and the write of the flag. -/

namespace Sys2Proof.Machine

/-- x = y (42_comparison.md R89). -/
def cmpEq (x y : Word) : Bool := decide (x = y)

/-- x ≠ y (42_comparison.md R90). -/
def cmpNeq (x y : Word) : Bool := decide (x ≠ y)

/-- sint(x) > sint(y) (42_comparison.md R91). -/
def cmpGt (x y : Word) : Bool := decide (sint y < sint x)

/-- sint(x) < sint(y) (42_comparison.md R92). -/
def cmpLt (x y : Word) : Bool := decide (sint x < sint y)

/-- sint(x) >= sint(y) (42_comparison.md R93). -/
def cmpGte (x y : Word) : Bool := decide (sint y ≤ sint x)

/-- sint(x) <= sint(y) (42_comparison.md R94). -/
def cmpLte (x y : Word) : Bool := decide (sint x ≤ sint y)

/-- flag <- the comparison of x[a] and x[b]; pc <- next (42_comparison.md). -/
def State.compare (s : State) (cmp : Word → Word → Bool) (a b : Reg) : Result :=
  .next ((s.setFlag (cmp (s.readReg a) (s.readReg b))).advance)

end Sys2Proof.Machine
end

