-- ==== Sys2Proof/Machine/Comparison.lean ====
section
/-! DEFINITION. EQ NEQ GT LT GTE LTE (42_comparison.md R89-R94). -/

namespace Sys2Proof.Machine

/-- EQ (42_comparison.md R89). -/
def execEq (a b : Reg) (s : State) : Result := s.compare cmpEq a b

/-- NEQ (42_comparison.md R90). -/
def execNeq (a b : Reg) (s : State) : Result := s.compare cmpNeq a b

/-- GT (42_comparison.md R91). -/
def execGt (a b : Reg) (s : State) : Result := s.compare cmpGt a b

/-- LT (42_comparison.md R92). -/
def execLt (a b : Reg) (s : State) : Result := s.compare cmpLt a b

/-- GTE (42_comparison.md R93). -/
def execGte (a b : Reg) (s : State) : Result := s.compare cmpGte a b

/-- LTE (42_comparison.md R94). -/
def execLte (a b : Reg) (s : State) : Result := s.compare cmpLte a b

end Sys2Proof.Machine
end

