-- ==== Sys2Proof/Machine/Control.lean ====
section
/-! DEFINITION. JMP JMPF JMPB JEQ CALL RET (43_control.md R95-R100). Targets are unbounded integers until the
target check has passed (40_cycle.md R75). -/

namespace Sys2Proof.Machine

/-- JMP (43_control.md R95). -/
def execJmp (target : BitVec 24) (s : State) : Result := s.jump (zext24 target)

/-- JMPF: forward from the jump's own address (43_control.md R96). -/
def execJmpf (r : Reg) (s : State) : Result := s.jump ((s.pc.toNat : Int) + sint (s.readReg r))

/-- JMPB: backward from the jump's own address (43_control.md R97). -/
def execJmpb (r : Reg) (s : State) : Result := s.jump ((s.pc.toNat : Int) - sint (s.readReg r))

/-- JEQ: the target is checked only when the jump is taken (43_control.md R98). -/
def execJeq (target : BitVec 24) (s : State) : Result :=
  if s.flag then s.jump (zext24 target) else .next s.advance

/-- CALL: the target check comes before the stack check (43_control.md R99, 60_exceptions.md R115). A stack over its
bound, which no run reaches, counts as full: entry 6. -/
def execCall (target : BitVec 24) (s : State) : Result :=
  if ¬ s.validTarget (zext24 target) then s.raise .jumpOutOfBounds
  else if Config.callStackMax ≤ s.depth then s.raise .callStackOverflow
  else .next ((s.push s.nextPc).setPc (BitVec.ofInt 32 (zext24 target)))

/-- RET (43_control.md R100). -/
def execRet (s : State) : Result :=
  match s.callStack with
  | [] => s.raise .callStackUnderflow
  | top :: _ => .next (s.dropTop.setPc top)

end Sys2Proof.Machine
end

