-- ==== Sys2Proof/Machine/HeapOps.lean ====
section
/-! DEFINITION. LOAD ALOC LDW STW LDB STB (44_memory_ops.md R102-R107). -/

namespace Sys2Proof.Machine

/-- LOAD: load-immediate, no heap access (44_memory_ops.md R102). -/
def execLoad (d : Reg) (imm : BitVec 16) (s : State) : Result := .next ((s.writeReg d (sext16 imm)).advance)

/-- ALOC: grow the heap by sint(x[r]) zero bytes (44_memory_ops.md R103). -/
def execAloc (r : Reg) (s : State) : Result :=
  if sint (s.readReg r) < 0 ∨ Config.heapMax < s.heap.extent + (sint (s.readReg r)).toNat then
    s.raise .outOfBounds
  else .next ((s.setHeap (s.heap.grow (sint (s.readReg r)).toNat)).advance)

/-- LDW (44_memory_ops.md R104). -/
def execLdw (a d : Reg) (s : State) : Result :=
  s.heapAccess a 4 fun ea => (s.writeReg d (s.heap.readWord ea)).advance

/-- STW: v is the register of the value, a that of the address (44_memory_ops.md R105). -/
def execStw (v a : Reg) (s : State) : Result :=
  s.heapAccess a 4 fun ea => (s.setHeap (s.heap.writeWord ea (s.readReg v))).advance

/-- LDB (44_memory_ops.md R106). -/
def execLdb (a d : Reg) (s : State) : Result :=
  s.heapAccess a 1 fun ea => (s.writeReg d (zext8 (s.heap.byte ea))).advance

/-- STB (44_memory_ops.md R107). -/
def execStb (v a : Reg) (s : State) : Result :=
  s.heapAccess a 1 fun ea => (s.setHeap (s.heap.setByte ea (lowByte (s.readReg v)))).advance

end Sys2Proof.Machine
end

