-- ==== Sys2Proof/Machine/System.lean ====
section
/-! DEFINITION. HALT and NOP (45_system.md R108, R109). -/

namespace Sys2Proof.Machine

/-- HALT: raise Halt(Normal) (45_system.md R108). -/
def execHalt (s : State) : Result := s.raise .normal

/-- NOP (45_system.md R109). -/
def execNop (s : State) : Result := .next s.advance

end Sys2Proof.Machine
end

