-- ==== Sys2Proof/Machine/Dispatch.lean ====
section
/-! DEFINITION. The dispatch of a decoded instruction to its meaning (40_cycle.md R73). -/

namespace Sys2Proof.Machine

def exec (i : Instr) (s : State) : Host.Outcome State Fault Refusal :=
  match i with
  | .halt => Sys2Proof.Machine.execHalt s
  | .load d imm => Sys2Proof.Machine.execLoad d imm s
  | .add a b d => Sys2Proof.Machine.execAdd a b d s
  | .sub a b d => Sys2Proof.Machine.execSub a b d s
  | .mul a b d => Sys2Proof.Machine.execMul a b d s
  | .div a b d => Sys2Proof.Machine.execDiv a b d s
  | .jmp t => Sys2Proof.Machine.execJmp t s
  | .jmpf r => Sys2Proof.Machine.execJmpf r s
  | .jmpb r => Sys2Proof.Machine.execJmpb r s
  | .eq a b => Sys2Proof.Machine.execEq a b s
  | .neq a b => Sys2Proof.Machine.execNeq a b s
  | .gt a b => Sys2Proof.Machine.execGt a b s
  | .lt a b => Sys2Proof.Machine.execLt a b s
  | .gte a b => Sys2Proof.Machine.execGte a b s
  | .lte a b => Sys2Proof.Machine.execLte a b s
  | .jeq t => Sys2Proof.Machine.execJeq t s
  | .aloc r => Sys2Proof.Machine.execAloc r s
  | .inc r => Sys2Proof.Machine.execInc r s
  | .dec r => Sys2Proof.Machine.execDec r s
  | .call t => Sys2Proof.Machine.execCall t s
  | .ret => Sys2Proof.Machine.execRet s
  | .nop => Sys2Proof.Machine.execNop s
  | .ldw a d => Sys2Proof.Machine.execLdw a d s
  | .stw v a => Sys2Proof.Machine.execStw v a s
  | .ldb a d => Sys2Proof.Machine.execLdb a d s
  | .stb v a => Sys2Proof.Machine.execStb v a s

end Sys2Proof.Machine
end

