-- ==== Sys2Proof/Machine/Step.lean ====
section
/-! DEFINITION. One step of the machine (40_cycle.md R69), and the placing of one instruction where the next
step fetches. -/

namespace Sys2Proof.Machine

/-- One step, its checks in the order of 60_exceptions.md R114: a halted machine does nothing (40_cycle.md R78);
pc = len halts Normal (R71); a decode error halts with its kind (R72); otherwise the instruction runs (R73).
A pc past len, which no run reaches (10_state.md R19), is a fault: entry 4. -/
def step (s : State) : Host.Outcome State Fault Refusal :=
  match s.status with
  | .halted _ => .next s
  | .running =>
    if s.pc.toNat = s.prog.extent then s.raise .normal
    else if s.prog.extent < s.pc.toNat then .fault .pcPastEnd
    else
      match decode s.fetch with
      | .error e => s.raise (haltOfDecodeError e)
      | .instr i => exec i s

/-- The state with one instruction word placed at pc, the program made long enough to hold it, and the machine
running: what the next step needs to fetch and run that word. It stands for the host's Load, which alone puts a
program into the machine (entry 3). -/
def State.withFetchWord (s : State) (nbits w : Nat) : State :=
  { s with prog := s.prog.place s.pc.toNat (bytesOfWord (tableWord nbits w)), status := .running }

end Sys2Proof.Machine
end

