-- ==== Sys2Proof/Machine/Assembler.lean ====
section
/-! DEFINITION. The assembly syntax, from source characters to a program binary (30_encoding.md R60-R68).
The assembler is not part of the machine (00_scope.md R3): nothing in the step uses this file. What the spec leaves
open about it is in entries 13 to 15 and 17 to 19. -/

namespace Sys2Proof.Asm

/-- The errors of the assembler (30_encoding.md R67). -/
inductive AsmError where
  | lexError
  | parseError
  | duplicateLabel
  | unresolvedSymbol
  deriving DecidableEq, Repr

/-- A label name. -/
abbrev Name := List Char

/-! ### Lexing a line (30_encoding.md R60, R61) -/

inductive Token where
  | word (cs : List Char)
  | comma
  | colon
  deriving DecidableEq, Repr

/-- White space within a line. DESIGN CHOICE, unsafe, entry 13. -/
def isSpace (c : Char) : Bool := c == ' ' || c == '\t' || c == '\r'

/-- The characters a word may hold: those of names, numbers, `$`, `#`, `-`, and the point of a directive, which is
then a ParseError (30_encoding.md R68). Any other character is a LexError. DESIGN CHOICE, unsafe, entry 13. -/
def isWordChar (c : Char) : Bool := c.isAlphanum || c == '_' || c == '$' || c == '#' || c == '-' || c == '.'

/-- The lines of a source text (30_encoding.md R60). The spec says that the text is line-oriented and not what ends a
line: here a line feed does, and nothing else. DESIGN CHOICE, unsafe, entry 19. -/
def splitLines : List Char → List (List Char)
  | [] => [[]]
  | c :: cs =>
    match splitLines cs with
    | [] => [[c]]
    | l :: ls => if c = '\n' then [] :: l :: ls else (c :: l) :: ls

/-- A comment runs from `;` to the end of the line (30_encoding.md R61). -/
def stripComment (line : List Char) : List Char := line.takeWhile (· ≠ ';')

/-- Put the word collected so far, its characters reversed, before the tokens that follow. -/
def endWord (acc : List Char) (rest : List Token) : List Token :=
  if acc = [] then rest else .word acc.reverse :: rest

/-- The tokens of the rest of a line, with the characters of the word now being read, reversed. -/
def lexFrom (acc : List Char) : List Char → Except AsmError (List Token)
  | [] => .ok (endWord acc [])
  | c :: cs =>
    if isSpace c then return endWord acc (← lexFrom [] cs)
    else if c = ',' then return endWord acc (.comma :: (← lexFrom [] cs))
    else if c = ':' then return endWord acc (.colon :: (← lexFrom [] cs))
    else if isWordChar c then lexFrom (c :: acc) cs
    else .error .lexError

/-- The tokens of a line. -/
def lexLine (line : List Char) : Except AsmError (List Token) := lexFrom [] (stripComment line)

/-! ### Operands (30_encoding.md R61-R65) -/

inductive Operand where
  | reg (r : Reg)
  | imm (i : Int)
  | name (n : Name)
  deriving DecidableEq, Repr

/-- A decimal number of at least one digit (30_encoding.md R63-R65). Leading zeros do not change the number, so `$00`
and `$007` stand for the registers `$0` and `$7`, and `#010` for `#10`: R14 and R63 do not say whether a number may
be written so. DESIGN CHOICE, unsafe, entry 17. -/
def decimal (cs : List Char) : Option Nat :=
  if cs ≠ [] ∧ cs.all Char.isDigit then some (cs.foldl (fun n c => 10 * n + (c.toNat - '0'.toNat)) 0) else none

/-- A label name: `[A-Za-z_][A-Za-z0-9_]*` (30_encoding.md R66). -/
def isName : List Char → Bool
  | [] => false
  | c :: cs => (c.isAlpha || c == '_') && cs.all fun d => d.isAlphanum || d == '_'

/-- One operand: `$N` with N in 0 .. 31 (R63), `#N` with an optional `-` (R64), or a bare label name (R65). `#-0` is
`#0` (entry 17); a word of no such form makes the line a ParseError (entry 18). -/
def parseOperand : List Char → Option Operand
  | '$' :: ds => (decimal ds).bind fun n => if h : n < 32 then some (.reg ⟨n, h⟩) else none
  | '#' :: '-' :: ds => (decimal ds).map fun n => .imm (-(n : Int))
  | '#' :: ds => (decimal ds).map fun n => .imm (n : Int)
  | cs => if isName cs then some (.name cs) else none

/-- What may come next among the operands of an instruction. -/
inductive Separator where
  /-- nothing read yet, or just a comma: an operand must come for the list to go on -/
  | open
  /-- an operand has been read: another one, a comma or the end may come -/
  | closed
  deriving DecidableEq, Repr

/-- The operands of an instruction, separated by white space or one comma (30_encoding.md R61). A comma elsewhere makes
the line a ParseError: entry 18. -/
def parseOperands : Separator → List Token → Option (List Operand)
  | .closed, [] => some []
  | .open, [] => none
  | _, .word w :: rest => do return (← parseOperand w) :: (← parseOperands .closed rest)
  | .closed, .comma :: rest => parseOperands .open rest
  | .open, .comma :: _ => none
  | _, .colon :: _ => none

/-! ### Instructions (30_encoding.md R52, R62) -/

/-- The instructions that take an address operand. -/
inductive JumpKind where
  | jmp
  | jeq
  | call
  deriving DecidableEq, Repr

def JumpKind.instr : JumpKind → BitVec 24 → Instr
  | .jmp, t => .jmp t
  | .jeq, t => .jeq t
  | .call, t => .call t

/-- An instruction of the source: complete, or with a label still to resolve (30_encoding.md R65). -/
inductive Stmt where
  | fixed (i : Instr)
  | toLabel (k : JumpKind) (n : Name)
  deriving DecidableEq, Repr

/-- The opcode of each mnemonic (30_encoding.md R52). -/
def mnemonics : List (Name × Nat) :=
  [("HALT".toList, 0x00), ("LOAD".toList, 0x01), ("ADD".toList, 0x02), ("SUB".toList, 0x03),
   ("MUL".toList, 0x04), ("DIV".toList, 0x05), ("JMP".toList, 0x06), ("JMPF".toList, 0x07),
   ("JMPB".toList, 0x08), ("EQ".toList, 0x09), ("NEQ".toList, 0x0A), ("GT".toList, 0x0B),
   ("LT".toList, 0x0C), ("GTE".toList, 0x0D), ("LTE".toList, 0x0E), ("JEQ".toList, 0x0F),
   ("ALOC".toList, 0x10), ("INC".toList, 0x11), ("DEC".toList, 0x12), ("CALL".toList, 0x13),
   ("RET".toList, 0x14), ("NOP".toList, 0x15), ("LDW".toList, 0x16), ("STW".toList, 0x17),
   ("LDB".toList, 0x18), ("STB".toList, 0x19)]

/-- A jump, conditional jump or call: the address is a label or `#N` with N in 0 .. 2^24-1 (30_encoding.md R65). R65
names no error for another N, negative ones among them: it makes the line a ParseError. DESIGN CHOICE, unsafe,
entry 18. A register is a wrong operand kind (R62). -/
def jumpStmt (k : JumpKind) : Operand → Option Stmt
  | .name n => some (.toLabel k n)
  | .imm i => if 0 ≤ i ∧ i < 16777216 then some (.fixed (k.instr (BitVec.ofInt 24 i))) else none
  | .reg _ => none

/-- The instruction of an opcode and its operands; none on a wrong count or kind (30_encoding.md R62), or an
immediate outside -32768 .. 32767 (R64). -/
def buildStmt : Nat → List Operand → Option Stmt
  | 0x00, [] => some (.fixed .halt)
  | 0x01, [.reg d, .imm i] =>
    if -32768 ≤ i ∧ i ≤ 32767 then some (.fixed (.load d (BitVec.ofInt 16 i))) else none
  | 0x02, [.reg a, .reg b, .reg d] => some (.fixed (.add a b d))
  | 0x03, [.reg a, .reg b, .reg d] => some (.fixed (.sub a b d))
  | 0x04, [.reg a, .reg b, .reg d] => some (.fixed (.mul a b d))
  | 0x05, [.reg a, .reg b, .reg d] => some (.fixed (.div a b d))
  | 0x06, [o] => jumpStmt .jmp o
  | 0x07, [.reg r] => some (.fixed (.jmpf r))
  | 0x08, [.reg r] => some (.fixed (.jmpb r))
  | 0x09, [.reg a, .reg b] => some (.fixed (.eq a b))
  | 0x0A, [.reg a, .reg b] => some (.fixed (.neq a b))
  | 0x0B, [.reg a, .reg b] => some (.fixed (.gt a b))
  | 0x0C, [.reg a, .reg b] => some (.fixed (.lt a b))
  | 0x0D, [.reg a, .reg b] => some (.fixed (.gte a b))
  | 0x0E, [.reg a, .reg b] => some (.fixed (.lte a b))
  | 0x0F, [o] => jumpStmt .jeq o
  | 0x10, [.reg r] => some (.fixed (.aloc r))
  | 0x11, [.reg r] => some (.fixed (.inc r))
  | 0x12, [.reg r] => some (.fixed (.dec r))
  | 0x13, [o] => jumpStmt .call o
  | 0x14, [] => some (.fixed .ret)
  | 0x15, [] => some (.fixed .nop)
  | 0x16, [.reg a, .reg d] => some (.fixed (.ldw a d))
  | 0x17, [.reg v, .reg a] => some (.fixed (.stw v a))
  | 0x18, [.reg a, .reg d] => some (.fixed (.ldb a d))
  | 0x19, [.reg v, .reg a] => some (.fixed (.stb v a))
  | _, _ => none

/-- A mnemonic, in any case, and its operands (30_encoding.md R62). No operand may follow a comma that follows the
mnemonic (R61). R62 names no error for an unknown mnemonic: it makes the line a ParseError. DESIGN CHOICE, unsafe,
entry 18. -/
def parseStmt : List Token → Option Stmt
  | .word m :: rest => do
    let op ← mnemonics.lookup (m.map Char.toUpper)
    let operands ← match rest with
      | [] => some []
      | _ => parseOperands .open rest
    buildStmt op operands
  | _ => none

/-! ### Lines (30_encoding.md R60) -/

/-- One line: a label declaration, an instruction, both or neither. -/
structure Line where
  label : Option Name
  stmt : Option Stmt
  deriving DecidableEq, Repr

/-- The instruction part of a line: blank or one instruction. -/
def parseRest (label : Option Name) : List Token → Option Line
  | [] => some ⟨label, none⟩
  | toks => (parseStmt toks).map fun st => ⟨label, some st⟩

/-- A line's tokens: an optional `name:` and an optional instruction (30_encoding.md R60, D41). A line of another form
is a ParseError: DESIGN CHOICE, unsafe, entry 18. -/
def parseLine : List Token → Except AsmError Line
  | .word n :: .colon :: rest =>
    if isName n then (parseRest (some n) rest).elim (.error .parseError) .ok else .error .parseError
  | toks => (parseRest none toks).elim (.error .parseError) .ok

/-! ### The two passes (30_encoding.md R66) -/

/-- Pass 1: every label's value, the offset of the next instruction; a second declaration is an error. -/
def labelTable : Nat → List (Name × Nat) → List Line → Except AsmError (List (Name × Nat))
  | _, table, [] => .ok table
  | off, table, l :: ls =>
    let next := if l.stmt.isSome then off + 4 else off
    match l.label with
    | none => labelTable next table ls
    | some n =>
      if (table.lookup n).isSome then .error .duplicateLabel else labelTable next ((n, off) :: table) ls

/-- The instruction of a statement once the labels are known. A label value that no 24-bit field holds is a
ParseError, as the model makes a number of that size (entry 18). DESIGN CHOICE, unsafe, entry 15. -/
def resolveStmt (table : List (Name × Nat)) : Stmt → Except AsmError Instr
  | .fixed i => .ok i
  | .toLabel k n =>
    match table.lookup n with
    | none => .error .unresolvedSymbol
    | some v => if v < 16777216 then .ok (k.instr (BitVec.ofNat 24 v)) else .error .parseError

/-- Pass 2: the instructions in source order. -/
def resolveLines (table : List (Name × Nat)) : List Line → Except AsmError (List Instr)
  | [] => .ok []
  | l :: ls =>
    match l.stmt with
    | none => resolveLines table ls
    | some st => return (← resolveStmt table st) :: (← resolveLines table ls)

/-- The binary of a list of instructions: the header, then each instruction's four bytes (30_encoding.md R67). -/
def binaryOf (is : List Instr) : List Byte := Config.magic ++ [Config.isaVersion] ++ is.flatMap encodeBytes

/-- The binary of parsed lines (30_encoding.md R66, R67). -/
def assembleLines (ls : List Line) : Except AsmError (List Byte) := do
  let table ← labelTable 0 [] ls
  let is ← resolveLines table ls
  return binaryOf is

/-- The binary of a source text, or one error and no bytes (30_encoding.md R67). All lines are lexed before any is
parsed, and all are parsed before the labels are read. DESIGN CHOICE, unsafe, entry 14. -/
def assemble (source : List Char) : Except AsmError (List Byte) := do
  let tokens ← (splitLines source).mapM lexLine
  let ls ← tokens.mapM parseLine
  assembleLines ls

end Sys2Proof.Asm
end

