-- ==== Sys2Proof/Machine/HostInterface.lean ====
section
/-! DEFINITION. What the host can do to the machine between steps: Load and reset (70_reset_and_hazards.md
R129-R132), one step with its outcome and the run loop with its budget (40_cycle.md R70, R79), and the read-only
accessors (R81). -/

namespace Sys2Proof.Machine

/-! ### Load and reset -/

/-- Why Load rejects a binary (70_reset_and_hazards.md R131). -/
inductive LoadError where
  | tooShort
  | badMagic
  | badVersion
  | tooLong
  deriving DecidableEq, Repr

/-- The header every binary begins with: the magic and the version byte (70_reset_and_hazards.md R129). -/
def binaryHeader : List Byte := Config.magic ++ [Config.isaVersion]

/-- The checks of Load, in their order (70_reset_and_hazards.md R131). -/
def checkBinary (bin : List Byte) : Option LoadError :=
  if bin.length < 5 then some .tooShort
  else if bin.take 4 ≠ Config.magic then some .badMagic
  else if bin[4]? ≠ some Config.isaVersion then some .badVersion
  else if Config.maxProgramLen < bin.length - 5 then some .tooLong
  else none

/-- The state a successful Load of a stream leaves: everything cleared but the heap (10_state.md R27,
70_reset_and_hazards.md R130, 20_memory.md R47). -/
def State.loadStream (s : State) (stream : List Byte) : State where
  regs := Vector.replicate 32 0
  pc := 0
  flag := false
  callStack := []
  heap := s.heap
  prog := Memory.ofBytes stream
  status := .running

/-- load(bytes): the state after it and the error it returns, if any; a failed Load changes nothing
(70_reset_and_hazards.md R130, R131). -/
def State.load (s : State) (bin : List Byte) : State × Option LoadError :=
  match checkBinary bin with
  | some e => (s, some e)
  | none => (s.loadStream (bin.drop 5), none)

/-- reset(): everything cleared but the loaded program (70_reset_and_hazards.md R132). -/
def State.hostReset (s : State) : State where
  regs := Vector.replicate 32 0
  pc := 0
  flag := false
  callStack := []
  heap := Memory.empty
  prog := s.prog
  status := .running

/-! ### step and run -/

/-- What step() returns to the host (40_cycle.md R70). -/
inductive StepOutcome where
  | running
  | halted (k : HaltKind)
  deriving DecidableEq, Repr

/-- The outcome a status stands for (40_cycle.md R70). -/
def Status.outcome : Status → StepOutcome
  | .running => .running
  | .halted k => .halted k

/-- step() as the host calls it: the state after the step and the outcome returned (40_cycle.md R69, R70). -/
def hostStep (s : State) : Host.Outcome (State × StepOutcome) Fault Refusal :=
  match step s with
  | .next t => .next (t, t.status.outcome)
  | .fault f => .fault f
  | .refused r => .refused r

/-- The run loop with n steps of its budget left: the status is looked at before the budget, the budget before the
step (40_cycle.md R79). -/
def runLimited : Nat → State → Result
  | 0, s =>
    match s.status with
    | .halted _ => .next s
    | .running => .next (s.halt .instructionLimitExceeded)
  | n + 1, s =>
    match s.status with
    | .halted _ => .next s
    | .running =>
      match step s with
      | .next t => runLimited n t
      | .fault f => .fault f
      | .refused r => .refused r

/-- run(Some(m)), m an unsigned 64-bit count (40_cycle.md R79); the reason it returns is in the status of the
state it leaves. -/
def runBudget (m : BitVec 64) (s : State) : Result := runLimited m.toNat s

/-- run(None) with fuel for the model: some result if the run ends within that many steps, none if it is still
running then (40_cycle.md R79, 70_reset_and_hazards.md R139). DESIGN CHOICE, safe, entry 10. -/
def runUnlimited : Nat → State → Option Result
  | 0, s =>
    match s.status with
    | .halted _ => some (.next s)
    | .running => none
  | fuel + 1, s =>
    match s.status with
    | .halted _ => some (.next s)
    | .running =>
      match step s with
      | .next t => runUnlimited fuel t
      | .fault f => some (.fault f)
      | .refused r => some (.refused r)

/-! ### Read-only accessors (40_cycle.md R81) -/

/-- registers() -/
def State.readRegisters (s : State) : Vector Word 32 := s.regs

/-- flag() -/
def State.readFlag (s : State) : Bool := s.flag

/-- pc(), an unsigned 32-bit value -/
def State.readPc (s : State) : Offset := s.pc

/-- read_heap(a, n): the n bytes from a on when 0 <= a and a + n <= hlen, otherwise an error value (none); the
address is an unbounded integer, as in the bounds check of the heap instructions (20_memory.md R36) -/
def State.readHeap (s : State) (a : Int) (n : Nat) : Option (List Byte) :=
  if s.heap.inBounds a n then some (s.heap.bytes a.toNat n) else none

/-- the status -/
def State.readStatus (s : State) : Status := s.status

/-- depth -/
def State.readDepth (s : State) : Nat := s.depth

/-- hlen -/
def State.readHlen (s : State) : Nat := s.hlen

end Sys2Proof.Machine
end

