-- ==== Sys2Proof/Safety.lean ====
section
/-! DEFINITION. The terms the claims use: the invariant of the machine, the states a host can bring it to, which
halts an instruction may raise, and what an instruction leaves unchanged. -/

namespace Sys2Proof.Safety

open Sys2Proof.Machine

/-! ### The invariant -/

/-- What holds between any two operations on the machine: the bounds of 00_scope.md R4 and 10_state.md R19, R21,
R23-R25, the fact about call stack entries that 43_control.md R100 rests on, and the canonical form of both
address spaces (entry 7). -/
structure MachineInv (s : State) : Prop where
  /-- pc stands at an instruction boundary (R19) -/
  pc_aligned : s.pc.toNat % 4 = 0
  /-- or exactly at the end of the stream (R19) -/
  pc_le_len : s.pc.toNat ≤ s.prog.extent
  /-- len is at most MAX_PROGRAM_LEN (R24) -/
  len_le_max : s.prog.extent ≤ Config.maxProgramLen
  /-- depth is at most CALL_STACK_MAX (R21) -/
  depth_le_max : s.callStack.length ≤ Config.callStackMax
  /-- every return address is a valid target (R100) -/
  entries_valid : ∀ e ∈ s.callStack, e.toNat % 4 = 0 ∧ e.toNat ≤ s.prog.extent
  /-- hlen is at most HEAP_MAX (R23) -/
  hlen_le_max : s.heap.extent ≤ Config.heapMax
  /-- the heap is in canonical form -/
  heap_wf : s.heap.wf = true
  /-- the program is in canonical form -/
  prog_wf : s.prog.wf = true

/-- The states the host's operations and the machine's steps lead to from power-on
(70_reset_and_hazards.md R128-R132, 40_cycle.md R69, R79). -/
inductive Reachable : State → Prop where
  | powerOn : Reachable State.reset
  | load {s : State} (bin : List Byte) : Reachable s → Reachable (s.load bin).1
  | reset {s : State} : Reachable s → Reachable s.hostReset
  | step {s t : State} : Reachable s → step s = .next t → Reachable t
  | run {s t : State} (m : BitVec 64) : Reachable s → runBudget m s = .next t → Reachable t

/-! ### Halts -/

/-- The execute-time checks of an instruction, as the halt kinds they raise (60_exceptions.md R115). -/
def ownChecks : Instr → List HaltKind
  | .div _ _ _ => [.divisionByZero]
  | .jmp _ | .jmpf _ | .jmpb _ | .jeq _ => [.jumpOutOfBounds]
  | .call _ => [.jumpOutOfBounds, .callStackOverflow]
  | .ret => [.callStackUnderflow]
  | .aloc _ | .ldw _ _ | .stw _ _ | .ldb _ _ | .stb _ _ => [.outOfBounds]
  | .halt | .nop | .load _ _ | .add _ _ _ | .sub _ _ _ | .mul _ _ _ | .inc _ | .dec _ => []
  | .eq _ _ | .neq _ _ | .gt _ _ | .lt _ _ | .gte _ _ | .lte _ _ => []

/-! ### Who writes what -/

/-- The register an instruction writes (10_state.md R15). -/
def destination : Instr → Option Reg
  | .load d _ | .add _ _ d | .sub _ _ d | .mul _ _ d | .div _ _ d | .ldw _ d | .ldb _ d => some d
  | .inc r | .dec r => some r
  | .halt | .jmp _ | .jmpf _ | .jmpb _ | .jeq _ | .call _ | .ret | .nop => none
  | .eq _ _ | .neq _ _ | .gt _ _ | .lt _ _ | .gte _ _ | .lte _ _ => none
  | .aloc _ | .stw _ _ | .stb _ _ => none

/-- The six comparisons, the only instructions that write the flag (10_state.md R20). -/
def isComparison : Instr → Bool
  | .eq _ _ | .neq _ _ | .gt _ _ | .lt _ _ | .gte _ _ | .lte _ _ => true
  | _ => false

/-- The control transfers (40_cycle.md R75, 43_control.md R100). -/
def isTransfer : Instr → Bool
  | .jmp _ | .jmpf _ | .jmpb _ | .jeq _ | .call _ | .ret => true
  | _ => false

/-- Two address spaces of one length whose every byte reads the same. -/
def SameBytes (m m' : Memory) : Prop := m'.extent = m.extent ∧ ∀ a, m'.read? a = m.read? a

/-- Two address spaces of one length whose every byte outside lo .. lo+n-1 reads the same. -/
def SameBytesOutside (lo n : Nat) (m m' : Memory) : Prop :=
  m'.extent = m.extent ∧ ∀ a, (a < lo ∨ lo + n ≤ a) → m'.read? a = m.read? a

/-- All registers read the same. -/
def SameRegs (s t : State) : Prop := ∀ r, t.readReg r = s.readReg r

/-- All registers but one read the same. -/
def SameRegsBut (d : Reg) (s t : State) : Prop := ∀ r, r ≠ d → t.readReg r = s.readReg r

/-- Flag, call stack, heap, program and status are unchanged: what an instruction leaves that writes one
register. -/
def OnlyRegister (d : Reg) (s t : State) : Prop :=
  SameRegsBut d s t ∧ t.flag = s.flag ∧ t.callStack = s.callStack ∧ SameBytes s.heap t.heap ∧
    SameBytes s.prog t.prog ∧ t.status = s.status

/-- Registers, call stack, heap, program and status are unchanged: what a comparison leaves. -/
def OnlyFlag (s t : State) : Prop :=
  SameRegs s t ∧ t.callStack = s.callStack ∧ SameBytes s.heap t.heap ∧ SameBytes s.prog t.prog ∧
    t.status = s.status

/-- Everything but pc is unchanged: what a jump leaves. -/
def OnlyPc (s t : State) : Prop := OnlyFlag s t ∧ t.flag = s.flag

/-- Everything but pc and the call stack is unchanged: what CALL and RET leave. -/
def OnlyPcAndStack (s t : State) : Prop :=
  SameRegs s t ∧ t.flag = s.flag ∧ SameBytes s.heap t.heap ∧ SameBytes s.prog t.prog ∧ t.status = s.status

/-- Registers, flag, call stack, program and status are unchanged: what an instruction leaves that writes the
heap; the heap's own frame stands beside it. -/
def OnlyHeap (s t : State) : Prop :=
  SameRegs s t ∧ t.flag = s.flag ∧ t.callStack = s.callStack ∧ SameBytes s.prog t.prog ∧ t.status = s.status

end Sys2Proof.Safety
end

