-- ==== Sys2Proof/Certificates/Slice0/Obligations.lean ====
section
/-! DEFINITION. The statements for the provers. Each docstring names the rules of spec/ the statement formalises.
2^32 is written 4294967296 and 2^24 is written 16777216. -/

open Sys2Proof Sys2Proof.Machine Sys2Proof.Safety

/-! ### Encoding -/

/-- Words written out from the encoding table of R50 and R52, one per format and family, and what they decode to
(95_test_vectors.md L1-1 and L2). -/
def Obligations.SpecWordsDecodeAsWritten : Prop :=
  decode [0x02, 0x00, 0x01, 0x02] = .instr (.add 0 1 2) ∧
  decode [0x01, 0x07, 0xFF, 0xFF] = .instr (.load 7 0xFFFF) ∧
  decode [0x06, 0xFF, 0xFF, 0xFC] = .instr (.jmp 0xFFFFFC) ∧
  decode [0x14, 0x00, 0x00, 0x00] = .instr .ret ∧
  decode [0x19, 0x1F, 0x1E, 0x00] = .instr (.stb 31 30) ∧
  decode [0x0B, 0x01, 0x02, 0x00] = .instr (.gt 1 2) ∧
  decode [0x11, 0x03, 0x00, 0x00] = .instr (.inc 3)

/-- The round-trip law of R58, for every instruction with every operand, whatever bytes follow it. -/
def Obligations.DecodeInvertsEncode : Prop :=
  ∀ (i : Instr) (rest : List Byte), decode (encodeBytes i ++ rest) = .instr i

/-- The converse of the round trip (R58): a word that decodes is the encoding of what it decodes to, so decoding
is injective on the words it accepts. -/
def Obligations.EncodeInvertsDecode : Prop :=
  (∀ (w : Word) (i : Instr), decodeWord w = .instr i → encode i = w) ∧
  (∀ (v w : Word) (i : Instr), decodeWord v = .instr i → decodeWord w = .instr i → v = w)

/-- The decoder's checks in their order (R56): length, opcode, register fields, reserved bytes. -/
def Obligations.DecodeChecksInOrder : Prop :=
  (∀ bs : List Byte, bs.length < 4 → decode bs = .error .truncatedInstruction) ∧
  (∀ (b0 b1 b2 b3 : Byte) (rest : List Byte),
    (0x19 < b0.toNat → decode (b0 :: b1 :: b2 :: b3 :: rest) = .error .illegalOpcode) ∧
    (b0.toNat ≤ 0x19 → ∃ f, formatOf b0 = some f ∧
      (((RawWord.mk b0 b1 b2 b3).registersOk f = false ∨ (RawWord.mk b0 b1 b2 b3).reservedOk f = false) →
        decode (b0 :: b1 :: b2 :: b3 :: rest) = .error .illegalOperand) ∧
      (((RawWord.mk b0 b1 b2 b3).registersOk f = true ∧ (RawWord.mk b0 b1 b2 b3).reservedOk f = true) →
        ∃ i, decode (b0 :: b1 :: b2 :: b3 :: rest) = .instr i ∧ encodeBytes i = [b0, b1, b2, b3])))

/-! ### The step -/

/-- A step runs the decoded instruction (R69, R73): on a running machine whose bytes at pc decode to i, the step is
exec of i and nothing more; the meaning itself writes pc (R74). Every value of Instr is well formed (R59). -/
def Obligations.StepRunsDecodedInstruction : Prop :=
  ∀ (s : State) (i : Instr), s.status = .running → s.pc.toNat < s.prog.extent → decode s.fetch = .instr i →
    step s = exec i s

/-- Fetch is big-endian (R32): the word decoded, its immediate and its address field, from the bytes at pc. -/
def Obligations.FetchIsBigEndian : Prop :=
  ∀ (s : State) (p : Nat), s.pc.toNat = p → p + 4 ≤ s.prog.extent →
    ∃ w : Word, decode s.fetch = decodeWord w ∧
      w.toNat = (s.prog.byte p).toNat * 2 ^ 24 + (s.prog.byte (p + 1)).toNat * 2 ^ 16 +
        (s.prog.byte (p + 2)).toNat * 2 ^ 8 + (s.prog.byte (p + 3)).toNat ∧
      (opcodeField w).toNat = (s.prog.byte p).toNat ∧
      (fieldImm16 w).toNat = (s.prog.byte (p + 2)).toNat * 2 ^ 8 + (s.prog.byte (p + 3)).toNat ∧
      (fieldAddr24 w).toNat = (s.prog.byte (p + 1)).toNat * 2 ^ 16 + (s.prog.byte (p + 2)).toNat * 2 ^ 8 +
        (s.prog.byte (p + 3)).toNat

/-- The checks of one step in their fixed order (R114), with what each leaves: the status and nothing else, pc at
the word (R72, R77). The last clause hands over to the instruction's own check (R115). -/
def Obligations.StepChecksInOrder : Prop :=
  ∀ s : State,
    (∀ k, s.status = .halted k → step s = .next s) ∧
    (s.status = .running → s.pc.toNat = s.prog.extent → step s = .next { s with status := .halted .normal }) ∧
    (s.status = .running → s.pc.toNat < s.prog.extent → s.prog.extent < s.pc.toNat + 4 →
      step s = .next { s with status := .halted .truncatedInstruction }) ∧
    (s.status = .running → s.pc.toNat + 4 ≤ s.prog.extent → ∀ w : RawWord,
      w = ⟨s.prog.byte s.pc.toNat, s.prog.byte (s.pc.toNat + 1), s.prog.byte (s.pc.toNat + 2),
        s.prog.byte (s.pc.toNat + 3)⟩ →
      (0x19 < w.b0.toNat → step s = .next { s with status := .halted .illegalOpcode }) ∧
      (w.b0.toNat ≤ 0x19 → w.wellFormed = false → step s = .next { s with status := .halted .illegalOperand }) ∧
      (w.wellFormed = true → ∃ i, encodeRaw i = w ∧ step s = exec i s))

/-- A halted machine does nothing: step and run, whatever the budget, leave it as it is, and so does a failed
Load; a successful Load and a reset make it run again (R78). -/
def Obligations.HaltIsTerminal : Prop :=
  ∀ (s : State) (k : HaltKind), s.status = .halted k →
    step s = .next s ∧ (∀ m, runBudget m s = .next s) ∧
    (∀ bin e, checkBinary bin = some e → (s.load bin).1 = s) ∧
    (∀ bin, checkBinary bin = none → (s.load bin).1.status = .running) ∧ s.hostReset.status = .running

/-- A step that halts a running machine writes only the status (R77). -/
def Obligations.HaltingStepWritesOnlyStatus : Prop :=
  ∀ (s t : State) (k : HaltKind), s.status = .running → step s = .next t → t.status = .halted k →
    t = { s with status := .halted k }

/-- Which halts an instruction raises (R115): those of its own checks, HALT the normal one, and CALL reports an
invalid target before a full stack. No instruction raises InstructionLimitExceeded. -/
def Obligations.InstructionsRaiseOnlyTheirOwnHalts : Prop :=
  (∀ (i : Instr) (s t : State) (k : HaltKind), s.status = .running → exec i s = .next t → t.status = .halted k →
    k ∈ ownChecks i ∨ (i = .halt ∧ k = .normal)) ∧
  (∀ (i : Instr), .instructionLimitExceeded ∉ ownChecks i) ∧
  (∀ (target : BitVec 24) (s : State),
    ¬ (target.toNat ≤ s.prog.extent ∧ target.toNat % 4 = 0) → Config.callStackMax ≤ s.depth →
    exec (.call target) s = .next { s with status := .halted .jumpOutOfBounds })

/-- How pc moves (R18): a halt leaves it, an instruction that is no control transfer sets it to the next word. -/
def Obligations.PcMovesOnlyAsStated : Prop :=
  ∀ (i : Instr) (s t : State), s.status = .running → exec i s = .next t →
    (∀ k, t.status = .halted k → t.pc = s.pc) ∧
    (t.status = .running → isTransfer i = false → t.pc = s.pc + 4)

/-! ### Invariants -/

/-- The power-on state satisfies the invariant (R27, R128): the bounds of R19, R21, R23, R24 and R100, and the canonical
form of both address spaces (the model's representation, DEDUCED, entry 7). -/
def Obligations.PowerOnSatisfiesInvariant : Prop := MachineInv State.reset

/-- Every step keeps the invariant: pc at a boundary of the stream (R19), every bound of R21, R23, R24, every
return address valid (R99, R100), both address spaces in canonical form (the model's representation, DEDUCED, entry 7). -/
def Obligations.StepKeepsInvariant : Prop :=
  ∀ s t : State, MachineInv s → step s = .next t → MachineInv t

/-- In a state of the invariant a step always answers a next state: no malformed program stops the model
otherwise than by a typed halt (R82). -/
def Obligations.StepAlwaysAnswersNext : Prop :=
  ∀ s : State, MachineInv s → ∃ t, step s = .next t

/-- Every state the host's operations and the machine's steps lead to satisfies the invariant: pc at a boundary of
the stream (R19), the bounds of R21, R23, R24, every return address valid (R99, R100), both address spaces in canonical
form (the model's representation, DEDUCED, entry 7). -/
def Obligations.ReachableStatesSatisfyInvariant : Prop :=
  ∀ s : State, Reachable s → MachineInv s

/-! ### Who writes what -/

/-- Only the six comparisons write the flag (R20), and a step of any other kind keeps it. -/
def Obligations.OnlyComparisonsWriteTheFlag : Prop :=
  (∀ (i : Instr) (s t : State), exec i s = .next t → isComparison i = false → t.flag = s.flag) ∧
  (∀ (s t : State), step s = .next t → t.flag ≠ s.flag →
    ∃ i, decode s.fetch = .instr i ∧ isComparison i = true)

/-- An instruction writes at most the register its destination field names (R15). -/
def Obligations.OnlyTheDestinationRegisterChanges : Prop :=
  ∀ (i : Instr) (s t : State) (r : Reg), exec i s = .next t → destination i ≠ some r →
    t.readReg r = s.readReg r

/-- Only CALL pushes and only RET pops (R21). -/
def Obligations.OnlyCallAndRetChangeTheCallStack : Prop :=
  ∀ (i : Instr) (s t : State), exec i s = .next t →
    t.callStack = s.callStack ∨
    ((∃ target, i = .call target) ∧ t.callStack = (s.pc + 4) :: s.callStack ∧ s.depth < Config.callStackMax) ∨
    (i = .ret ∧ s.callStack = t.pc :: t.callStack)

/-- The heap grows only by ALOC, never shrinks in a step, and its bytes are written only by STW and STB (R23). -/
def Obligations.OnlyHeapInstructionsChangeTheHeap : Prop :=
  ∀ (i : Instr) (s t : State), exec i s = .next t →
    s.heap.extent ≤ t.heap.extent ∧
    ((∀ r, i ≠ .aloc r) → t.heap.extent = s.heap.extent) ∧
    ((∀ v a, i ≠ .stw v a ∧ i ≠ .stb v a) → ∀ a, a < s.heap.extent → t.heap.read? a = s.heap.read? a)

/-- No step changes the loaded program (R24, R45). -/
def Obligations.NoStepChangesTheProgram : Prop :=
  (∀ s t : State, step s = .next t → t.prog = s.prog) ∧
  (∀ (m : BitVec 64) (s t : State), runBudget m s = .next t → t.prog = s.prog)

/-! ### Arithmetic -/

/-- ADD (R83): encoding, result modulo 2^32, frame. -/
def Obligations.AddWritesWrappedSum : Prop :=
  ∀ (a b d : Reg) (s : State),
    decodeWord (0x02#8 ++ regByte a ++ regByte b ++ regByte d) = .instr (.add a b d) ∧
    ∃ t, exec (.add a b d) s = .next t ∧
      ((t.readReg d).toNat : Int) = ((s.readReg a).toInt + (s.readReg b).toInt) % 4294967296 ∧
      t.pc = s.pc + 4 ∧ OnlyRegister d s t

/-- SUB (R84): encoding, a minus b modulo 2^32, frame. -/
def Obligations.SubWritesWrappedDifference : Prop :=
  ∀ (a b d : Reg) (s : State),
    decodeWord (0x03#8 ++ regByte a ++ regByte b ++ regByte d) = .instr (.sub a b d) ∧
    ∃ t, exec (.sub a b d) s = .next t ∧
      ((t.readReg d).toNat : Int) = ((s.readReg a).toInt - (s.readReg b).toInt) % 4294967296 ∧
      t.pc = s.pc + 4 ∧ OnlyRegister d s t

/-- MUL (R85): encoding, the low 32 bits of the product, frame; reading the operands as unsigned gives the same
result. -/
def Obligations.MulWritesLowProduct : Prop :=
  ∀ (a b d : Reg) (s : State),
    decodeWord (0x04#8 ++ regByte a ++ regByte b ++ regByte d) = .instr (.mul a b d) ∧
    ∃ t, exec (.mul a b d) s = .next t ∧
      ((t.readReg d).toNat : Int) = ((s.readReg a).toInt * (s.readReg b).toInt) % 4294967296 ∧
      (t.readReg d).toNat = (s.readReg a).toNat * (s.readReg b).toNat % 4294967296 ∧
      t.pc = s.pc + 4 ∧ OnlyRegister d s t

/-- DIV (R86): encoding; for a divisor other than 0 the quotient rounded toward zero, modulo 2^32, and the frame;
for a divisor of 0 the halt DivisionByZero, with nothing else changed. -/
def Obligations.DivWritesTruncatedQuotientOrHalts : Prop :=
  ∀ (a b d : Reg) (s : State),
    decodeWord (0x05#8 ++ regByte a ++ regByte b ++ regByte d) = .instr (.div a b d) ∧
    (s.readReg b ≠ 0#32 → ∃ t, exec (.div a b d) s = .next t ∧
      ((t.readReg d).toNat : Int) = Int.tdiv (s.readReg a).toInt (s.readReg b).toInt % 4294967296 ∧
      t.pc = s.pc + 4 ∧ OnlyRegister d s t) ∧
    (s.readReg b = 0#32 → exec (.div a b d) s = .next { s with status := .halted .divisionByZero })

/-- INC and DEC (R87, R88): encoding, plus or minus 1 modulo 2^32, frame. -/
def Obligations.IncAndDecStepByOne : Prop :=
  ∀ (r : Reg) (s : State),
    (decodeWord (0x11#8 ++ regByte r ++ 0x0000#16) = .instr (.inc r) ∧
      ∃ t, exec (.inc r) s = .next t ∧
        ((t.readReg r).toNat : Int) = ((s.readReg r).toInt + 1) % 4294967296 ∧
        t.pc = s.pc + 4 ∧ OnlyRegister r s t) ∧
    (decodeWord (0x12#8 ++ regByte r ++ 0x0000#16) = .instr (.dec r) ∧
      ∃ t, exec (.dec r) s = .next t ∧
        ((t.readReg r).toNat : Int) = ((s.readReg r).toInt - 1) % 4294967296 ∧
        t.pc = s.pc + 4 ∧ OnlyRegister r s t)

/-! ### Comparisons -/

/-- EQ and NEQ (R89, R90): encoding, the flag, frame. -/
def Obligations.EqAndNeqSetTheFlag : Prop :=
  ∀ (a b : Reg) (s : State),
    (decodeWord (0x09#8 ++ regByte a ++ regByte b ++ 0x00#8) = .instr (.eq a b) ∧
      ∃ t, exec (.eq a b) s = .next t ∧ (t.flag = true ↔ s.readReg a = s.readReg b) ∧
        t.pc = s.pc + 4 ∧ OnlyFlag s t) ∧
    (decodeWord (0x0A#8 ++ regByte a ++ regByte b ++ 0x00#8) = .instr (.neq a b) ∧
      ∃ t, exec (.neq a b) s = .next t ∧ (t.flag = true ↔ s.readReg a ≠ s.readReg b) ∧
        t.pc = s.pc + 4 ∧ OnlyFlag s t)

/-- GT and LT (R91, R92): encoding, the signed strict comparisons, frame. -/
def Obligations.GtAndLtSetTheFlag : Prop :=
  ∀ (a b : Reg) (s : State),
    (decodeWord (0x0B#8 ++ regByte a ++ regByte b ++ 0x00#8) = .instr (.gt a b) ∧
      ∃ t, exec (.gt a b) s = .next t ∧ (t.flag = true ↔ (s.readReg a).toInt > (s.readReg b).toInt) ∧
        t.pc = s.pc + 4 ∧ OnlyFlag s t) ∧
    (decodeWord (0x0C#8 ++ regByte a ++ regByte b ++ 0x00#8) = .instr (.lt a b) ∧
      ∃ t, exec (.lt a b) s = .next t ∧ (t.flag = true ↔ (s.readReg a).toInt < (s.readReg b).toInt) ∧
        t.pc = s.pc + 4 ∧ OnlyFlag s t)

/-- GTE and LTE (R93, R94): encoding, the signed comparisons, frame. -/
def Obligations.GteAndLteSetTheFlag : Prop :=
  ∀ (a b : Reg) (s : State),
    (decodeWord (0x0D#8 ++ regByte a ++ regByte b ++ 0x00#8) = .instr (.gte a b) ∧
      ∃ t, exec (.gte a b) s = .next t ∧ (t.flag = true ↔ (s.readReg a).toInt ≥ (s.readReg b).toInt) ∧
        t.pc = s.pc + 4 ∧ OnlyFlag s t) ∧
    (decodeWord (0x0E#8 ++ regByte a ++ regByte b ++ 0x00#8) = .instr (.lte a b) ∧
      ∃ t, exec (.lte a b) s = .next t ∧ (t.flag = true ↔ (s.readReg a).toInt ≤ (s.readReg b).toInt) ∧
        t.pc = s.pc + 4 ∧ OnlyFlag s t)

/-! ### Control transfer -/

/-- JMP (R95): encoding; a target inside 0 .. len and a multiple of 4 is taken, any other halts
JumpOutOfBounds. -/
def Obligations.JmpGoesToValidTargetOrHalts : Prop :=
  ∀ (target : BitVec 24) (s : State),
    decodeWord (0x06#8 ++ target) = .instr (.jmp target) ∧
    ((target.toNat ≤ s.prog.extent ∧ target.toNat % 4 = 0) →
      ∃ t, exec (.jmp target) s = .next t ∧ t.pc.toNat = target.toNat ∧ OnlyPc s t) ∧
    (¬ (target.toNat ≤ s.prog.extent ∧ target.toNat % 4 = 0) →
      exec (.jmp target) s = .next { s with status := .halted .jumpOutOfBounds })

/-- JMPF and JMPB (R96, R97): encoding; the target is the jump's own pc plus or minus the signed register, on
unbounded integers, taken where it is valid, JumpOutOfBounds otherwise. The bound on len is part of `MachineInv`. -/
def Obligations.RelativeJumpsGoToValidTargetOrHalt : Prop :=
  ∀ (r : Reg) (s : State) (x : Int), x = (s.readReg r).toInt → s.prog.extent ≤ Config.maxProgramLen →
    (decodeWord (0x07#8 ++ regByte r ++ 0x0000#16) = .instr (.jmpf r) ∧
      ((0 ≤ s.pc.toNat + x ∧ s.pc.toNat + x ≤ s.prog.extent ∧ (s.pc.toNat + x) % 4 = 0) →
        ∃ t, exec (.jmpf r) s = .next t ∧ (t.pc.toNat : Int) = s.pc.toNat + x ∧ OnlyPc s t) ∧
      (¬ (0 ≤ s.pc.toNat + x ∧ s.pc.toNat + x ≤ s.prog.extent ∧ (s.pc.toNat + x) % 4 = 0) →
        exec (.jmpf r) s = .next { s with status := .halted .jumpOutOfBounds })) ∧
    (decodeWord (0x08#8 ++ regByte r ++ 0x0000#16) = .instr (.jmpb r) ∧
      ((0 ≤ s.pc.toNat - x ∧ s.pc.toNat - x ≤ s.prog.extent ∧ (s.pc.toNat - x) % 4 = 0) →
        ∃ t, exec (.jmpb r) s = .next t ∧ (t.pc.toNat : Int) = s.pc.toNat - x ∧ OnlyPc s t) ∧
      (¬ (0 ≤ s.pc.toNat - x ∧ s.pc.toNat - x ≤ s.prog.extent ∧ (s.pc.toNat - x) % 4 = 0) →
        exec (.jmpb r) s = .next { s with status := .halted .jumpOutOfBounds }))

/-- JEQ (R98): encoding; falls through with the flag false, whatever the target; with the flag true it jumps to a
valid target and halts on any other. The flag keeps its value. -/
def Obligations.JeqJumpsOnlyOnTheFlag : Prop :=
  ∀ (target : BitVec 24) (s : State),
    decodeWord (0x0F#8 ++ target) = .instr (.jeq target) ∧
    (s.flag = false → ∃ t, exec (.jeq target) s = .next t ∧ t.pc = s.pc + 4 ∧ OnlyPc s t) ∧
    (s.flag = true → (target.toNat ≤ s.prog.extent ∧ target.toNat % 4 = 0) →
      ∃ t, exec (.jeq target) s = .next t ∧ t.pc.toNat = target.toNat ∧ OnlyPc s t) ∧
    (s.flag = true → ¬ (target.toNat ≤ s.prog.extent ∧ target.toNat % 4 = 0) →
      exec (.jeq target) s = .next { s with status := .halted .jumpOutOfBounds })

/-- CALL (R99): encoding; a valid target with room on the stack pushes the next word's address and jumps; an
invalid target halts JumpOutOfBounds; a valid one with a full stack halts CallStackOverflow. -/
def Obligations.CallPushesNextAndJumpsOrHalts : Prop :=
  ∀ (target : BitVec 24) (s : State),
    decodeWord (0x13#8 ++ target) = .instr (.call target) ∧
    ((target.toNat ≤ s.prog.extent ∧ target.toNat % 4 = 0) → s.depth < Config.callStackMax →
      ∃ t, exec (.call target) s = .next t ∧ t.callStack = (s.pc + 4) :: s.callStack ∧
        t.pc.toNat = target.toNat ∧ OnlyPcAndStack s t) ∧
    (¬ (target.toNat ≤ s.prog.extent ∧ target.toNat % 4 = 0) →
      exec (.call target) s = .next { s with status := .halted .jumpOutOfBounds }) ∧
    ((target.toNat ≤ s.prog.extent ∧ target.toNat % 4 = 0) → s.depth = Config.callStackMax →
      exec (.call target) s = .next { s with status := .halted .callStackOverflow })

/-- RET (R100): encoding; pops the top entry into pc, or halts CallStackUnderflow on an empty stack. -/
def Obligations.RetPopsOrHalts : Prop :=
  decodeWord 0x14000000#32 = .instr .ret ∧
  (∀ (s : State) (top : Offset) (rest : List Offset), s.callStack = top :: rest →
    ∃ t, exec .ret s = .next t ∧ t.pc = top ∧ t.callStack = rest ∧ OnlyPcAndStack s t) ∧
  (∀ s : State, s.callStack = [] → exec .ret s = .next { s with status := .halted .callStackUnderflow })

/-- A RET that finds the call stack as a CALL left it goes to the instruction after the CALL and leaves the stack
as the CALL found it (R99, R100; 95_test_vectors.md L1-5). -/
def Obligations.RetReturnsToTheWordAfterCall : Prop :=
  ∀ (target : BitVec 24) (s t u : State), s.status = .running → exec (.call target) s = .next t →
    t.status = .running → u.callStack = t.callStack →
    ∃ v, exec .ret u = .next v ∧ v.pc = s.pc + 4 ∧ v.callStack = s.callStack

/-! ### Immediate and heap -/

/-- LOAD (R102): encoding, the sign-extended immediate, frame. -/
def Obligations.LoadWritesSignedImmediate : Prop :=
  ∀ (d : Reg) (imm : BitVec 16) (s : State),
    decodeWord (0x01#8 ++ regByte d ++ imm) = .instr (.load d imm) ∧
    ∃ t, exec (.load d imm) s = .next t ∧ (t.readReg d).toInt = imm.toInt ∧ t.pc = s.pc + 4 ∧
      OnlyRegister d s t

/-- ALOC (R103): encoding; a size of at least 0 that stays within HEAP_MAX makes the heap longer, its old bytes
kept and (in canonical form, entry 7) its new ones 0x00; any other size halts OutOfBounds. -/
def Obligations.AlocGrowsTheHeapOrHalts : Prop :=
  ∀ (r : Reg) (s : State) (n : Int), n = (s.readReg r).toInt →
    decodeWord (0x10#8 ++ regByte r ++ 0x0000#16) = .instr (.aloc r) ∧
    ((0 ≤ n ∧ s.heap.extent + n ≤ Config.heapMax) →
      ∃ t, exec (.aloc r) s = .next t ∧ (t.heap.extent : Int) = s.heap.extent + n ∧
        (∀ a, a < s.heap.extent → t.heap.read? a = s.heap.read? a) ∧
        (s.heap.wf = true → ∀ a, s.heap.extent ≤ a → a < t.heap.extent → t.heap.read? a = some 0x00#8) ∧
        t.pc = s.pc + 4 ∧ OnlyHeap s t) ∧
    (¬ (0 ≤ n ∧ s.heap.extent + n ≤ Config.heapMax) →
      exec (.aloc r) s = .next { s with status := .halted .outOfBounds })

/-- LDW (R104): encoding; the four bytes from the address on as a big-endian word, at any alignment; an access not
wholly inside the extent halts OutOfBounds. -/
def Obligations.LdwReadsBigEndianWordOrHalts : Prop :=
  ∀ (a d : Reg) (s : State) (ea : Int), ea = s.heapAddr a →
    decodeWord (0x16#8 ++ regByte a ++ regByte d ++ 0x00#8) = .instr (.ldw a d) ∧
    ((0 ≤ ea ∧ ea + 4 ≤ s.heap.extent) →
      ∃ t, exec (.ldw a d) s = .next t ∧
        (t.readReg d).toNat = (s.heap.byte ea.toNat).toNat * 2 ^ 24 + (s.heap.byte (ea.toNat + 1)).toNat * 2 ^ 16 +
          (s.heap.byte (ea.toNat + 2)).toNat * 2 ^ 8 + (s.heap.byte (ea.toNat + 3)).toNat ∧
        t.pc = s.pc + 4 ∧ OnlyRegister d s t) ∧
    (¬ (0 ≤ ea ∧ ea + 4 ≤ s.heap.extent) → exec (.ldw a d) s = .next { s with status := .halted .outOfBounds })

/-- STW (R105): encoding; the value's four bytes stored most significant first from the address on (read back in
canonical form, entry 7), every other byte of the heap kept; an access not wholly inside the extent halts
OutOfBounds with no byte written. -/
def Obligations.StwStoresBigEndianWordOrHalts : Prop :=
  ∀ (v a : Reg) (s : State) (ea : Int), ea = s.heapAddr a →
    decodeWord (0x17#8 ++ regByte v ++ regByte a ++ 0x00#8) = .instr (.stw v a) ∧
    ((0 ≤ ea ∧ ea + 4 ≤ s.heap.extent) →
      ∃ t, exec (.stw v a) s = .next t ∧
        (s.heap.wf = true → ∀ k, k < 4 → ∃ c : Byte, t.heap.read? (ea.toNat + k) = some c ∧
          c.toNat = (s.readReg v).toNat / 2 ^ (8 * (3 - k)) % 256) ∧
        SameBytesOutside ea.toNat 4 s.heap t.heap ∧ t.pc = s.pc + 4 ∧ OnlyHeap s t) ∧
    (¬ (0 ≤ ea ∧ ea + 4 ≤ s.heap.extent) → exec (.stw v a) s = .next { s with status := .halted .outOfBounds })

/-- LDB (R106): encoding; the byte at the address, zero-extended; an address outside the extent halts
OutOfBounds. -/
def Obligations.LdbReadsZeroExtendedByteOrHalts : Prop :=
  ∀ (a d : Reg) (s : State) (ea : Int), ea = s.heapAddr a →
    decodeWord (0x18#8 ++ regByte a ++ regByte d ++ 0x00#8) = .instr (.ldb a d) ∧
    ((0 ≤ ea ∧ ea + 1 ≤ s.heap.extent) →
      ∃ t, exec (.ldb a d) s = .next t ∧ (t.readReg d).toNat = (s.heap.byte ea.toNat).toNat ∧
        t.pc = s.pc + 4 ∧ OnlyRegister d s t) ∧
    (¬ (0 ≤ ea ∧ ea + 1 ≤ s.heap.extent) → exec (.ldb a d) s = .next { s with status := .halted .outOfBounds })

/-- STB (R107): encoding; the low byte of the value stored at the address (read back in canonical form, entry 7),
every other byte kept; an address outside the extent halts OutOfBounds. -/
def Obligations.StbStoresLowByteOrHalts : Prop :=
  ∀ (v a : Reg) (s : State) (ea : Int), ea = s.heapAddr a →
    decodeWord (0x19#8 ++ regByte v ++ regByte a ++ 0x00#8) = .instr (.stb v a) ∧
    ((0 ≤ ea ∧ ea + 1 ≤ s.heap.extent) →
      ∃ t, exec (.stb v a) s = .next t ∧
        (s.heap.wf = true → ∃ c : Byte, t.heap.read? ea.toNat = some c ∧ c.toNat = (s.readReg v).toNat % 256) ∧
        SameBytesOutside ea.toNat 1 s.heap t.heap ∧ t.pc = s.pc + 4 ∧ OnlyHeap s t) ∧
    (¬ (0 ≤ ea ∧ ea + 1 ≤ s.heap.extent) → exec (.stb v a) s = .next { s with status := .halted .outOfBounds })

/-- Mixed-width access (R33): after a STW of v at ea, in any later state with that heap, LDB at ea + k loads byte k
of v from the most significant end, and LDW at ea loads v. -/
def Obligations.StoredWordReadsBackByBytes : Prop :=
  ∀ (v a : Reg) (s t : State), s.heap.wf = true → 0 ≤ s.heapAddr a → s.heapAddr a + 4 ≤ s.heap.extent →
    exec (.stw v a) s = .next t →
    (∀ (k : Nat) (r d : Reg) (u : State), k < 4 → u.heap = t.heap → u.heapAddr r = s.heapAddr a + k →
      ∃ w, exec (.ldb r d) u = .next w ∧
        (w.readReg d).toNat = (s.readReg v).toNat / 2 ^ (8 * (3 - k)) % 256) ∧
    (∀ (r d : Reg) (u : State), u.heap = t.heap → u.heapAddr r = s.heapAddr a →
      ∃ w, exec (.ldw r d) u = .next w ∧ w.readReg d = s.readReg v)

/-- Mixed-width access (R33): after four STB of bytes at ea .. ea+3, each into the heap the one before left, LDW at
ea loads the four bytes as one big-endian word. -/
def Obligations.StoredBytesReadBackAsWord : Prop :=
  ∀ (v a : Fin 4 → Reg) (s t : Fin 4 → State) (ea : Nat), (s 0).heap.wf = true →
    ea + 4 ≤ (s 0).heap.extent → (∀ k : Fin 4, (s k).heapAddr (a k) = ea + k.val) →
    (∀ k : Fin 4, exec (.stb (v k) (a k)) (s k) = .next (t k)) →
    (s 1).heap = (t 0).heap → (s 2).heap = (t 1).heap → (s 3).heap = (t 2).heap →
    ∀ (r d : Reg) (u : State), u.heap = (t 3).heap → u.heapAddr r = ea →
      ∃ w, exec (.ldw r d) u = .next w ∧
        (w.readReg d).toNat = ((s 0).readReg (v 0)).toNat % 256 * 2 ^ 24 +
          ((s 1).readReg (v 1)).toNat % 256 * 2 ^ 16 + ((s 2).readReg (v 2)).toNat % 256 * 2 ^ 8 +
          ((s 3).readReg (v 3)).toNat % 256

/-! ### System -/

/-- HALT (R108): encoding, the normal halt with nothing but the status changed, the next step a no-op, and the
word with a reserved byte set no HALT. -/
def Obligations.HaltHaltsNormally : Prop :=
  decodeWord 0x00000000#32 = .instr .halt ∧
  decodeWord 0x00000001#32 = .error .illegalOperand ∧
  ∀ s : State, exec .halt s = .next { s with status := .halted .normal } ∧
    step { s with status := .halted .normal } = .next { s with status := .halted .normal }

/-- NOP (R109): encoding, pc to the next word and nothing else, one step of a run's budget. -/
def Obligations.NopOnlyAdvances : Prop :=
  decodeWord 0x15000000#32 = .instr .nop ∧
  (∀ s : State, ∃ t, exec .nop s = .next t ∧ t.pc = s.pc + 4 ∧ OnlyPc s t) ∧
  (∀ (m : BitVec 64) (s : State), s.status = .running → decode s.fetch = .instr .nop → m ≠ 0#64 →
    runBudget m s = runBudget (m - 1#64) { s with pc := s.pc + 4 })

/-- The ten halt kinds and their codes, each its own, and all but the normal one are errors (R111). -/
def Obligations.HaltCodesAsTabulated : Prop :=
  ([.normal, .illegalOpcode, .truncatedInstruction, .illegalOperand, .divisionByZero, .jumpOutOfBounds,
    .callStackUnderflow, .callStackOverflow, .outOfBounds, .instructionLimitExceeded] : List HaltKind).map
      HaltKind.code = [0, 1, 2, 3, 4, 5, 6, 7, 8, 9] ∧
  (∀ j k : HaltKind, j.code = k.code → j = k) ∧ (∀ k : HaltKind, k.isError = true ↔ 1 ≤ k.code)

/-! ### Power-on, Load, reset and run -/

/-- Power-on (R128): every register 0, no program, empty heap and stack, Running, and the first step halts
Normal. -/
def Obligations.PowerOnStateAndItsFirstStep : Prop :=
  (∀ r, State.reset.readReg r = 0#32) ∧ State.reset.pc = 0#32 ∧ State.reset.flag = false ∧
  State.reset.callStack = [] ∧ State.reset.hlen = 0 ∧ State.reset.len = 0 ∧ State.reset.status = .running ∧
  step State.reset = .next { State.reset with status := .halted .normal }

/-- A successful Load (R130): the program is the bytes after the header, one for one; registers, pc, flag and call
stack are cleared; the heap is kept; the status is Running whatever it was. -/
def Obligations.LoadReplacesProgramAndKeepsHeap : Prop :=
  ∀ (s : State) (bin : List Byte), checkBinary bin = none →
    (s.load bin).2 = none ∧ (s.load bin).1.len = bin.length - 5 ∧
    (∀ a, (s.load bin).1.prog.read? a = bin[a + 5]?) ∧
    (∀ r, (s.load bin).1.readReg r = 0#32) ∧ (s.load bin).1.pc = 0#32 ∧ (s.load bin).1.flag = false ∧
    (s.load bin).1.callStack = [] ∧ (s.load bin).1.heap = s.heap ∧ (s.load bin).1.status = .running

/-- The checks of Load in their order (R131), and that a failed Load changes nothing. -/
def Obligations.LoadChecksInOrder : Prop :=
  ∀ (s : State) (bin : List Byte),
    (bin.length < 5 → s.load bin = (s, some .tooShort)) ∧
    (∀ b0 b1 b2 b3 v stream, bin = b0 :: b1 :: b2 :: b3 :: v :: stream →
      ([b0, b1, b2, b3] ≠ [0x4C#8, 0x52#8, 0x56#8, 0x4D#8] → s.load bin = (s, some .badMagic)) ∧
      ([b0, b1, b2, b3] = [0x4C#8, 0x52#8, 0x56#8, 0x4D#8] → v ≠ 0x01#8 → s.load bin = (s, some .badVersion)) ∧
      ([b0, b1, b2, b3] = [0x4C#8, 0x52#8, 0x56#8, 0x4D#8] → v = 0x01#8 → 16777216 < stream.length →
        s.load bin = (s, some .tooLong)) ∧
      ([b0, b1, b2, b3] = [0x4C#8, 0x52#8, 0x56#8, 0x4D#8] → v = 0x01#8 → stream.length ≤ 16777216 →
        checkBinary bin = none))

/-- Reset (R132): everything cleared but the loaded program. -/
def Obligations.ResetClearsAllButTheProgram : Prop :=
  ∀ s : State, (∀ r, s.hostReset.readReg r = 0#32) ∧ s.hostReset.pc = 0#32 ∧ s.hostReset.flag = false ∧
    s.hostReset.callStack = [] ∧ s.hostReset.hlen = 0 ∧ (∀ a, s.hostReset.heap.read? a = none) ∧
    s.hostReset.status = .running ∧ s.hostReset.prog = s.prog

/-- The run loop (R79): the status is looked at first, then the budget, then a step is taken; without a budget the
loop goes on until the machine halts. The fuel of `runUnlimited` is the model's (DESIGN CHOICE, entry 10). -/
def Obligations.RunLoopAsStated : Prop :=
  (∀ (m : BitVec 64) (s : State) (k : HaltKind), s.status = .halted k → runBudget m s = .next s) ∧
  (∀ s : State, s.status = .running →
    runBudget 0 s = .next { s with status := .halted .instructionLimitExceeded }) ∧
  (∀ (m : BitVec 64) (s t : State), s.status = .running → m ≠ 0#64 → step s = .next t →
    runBudget m s = runBudget (m - 1#64) t) ∧
  (∀ (fuel : Nat) (s : State) (k : HaltKind), s.status = .halted k → runUnlimited fuel s = some (.next s)) ∧
  (∀ (fuel : Nat) (s t : State), s.status = .running → step s = .next t →
    runUnlimited (fuel + 1) s = runUnlimited fuel t)

/-- A run with a budget, from any state of the invariant, ends in a halted state (R79, R82) that satisfies the
invariant: the bounds of R19, R21, R23, R24, every return address valid (R99, R100), and the canonical form of both
address spaces (the model's representation, DEDUCED, entry 7). -/
def Obligations.BudgetedRunAlwaysHalts : Prop :=
  ∀ (m : BitVec 64) (s : State), MachineInv s →
    ∃ t k, runBudget m s = .next t ∧ t.status = .halted k ∧ MachineInv t

/-- The budget halt leaves the machine as the last completed step left it, but for the status, when as many steps
have been taken as the budget says, and it is terminal (R121). -/
def Obligations.BudgetHaltKeepsTheLastState : Prop :=
  ∀ (m : BitVec 64) (s t : State), s.status = .running → runBudget m s = .next t →
    t.status = .halted .instructionLimitExceeded →
    ∃ u, Host.Core.run Sys2Proof.core m.toNat s = .next u ∧ u.status = .running ∧
      t = { u with status := .halted .instructionLimitExceeded } ∧ step t = .next t

/-- A run that ends of its own accord within some number of steps ends the same way under every budget of at least
that many (R79), and a run without a budget ends that way too (its fuel is the model's: DESIGN CHOICE, entry
10). -/
def Obligations.LargerBudgetSameEnd : Prop :=
  ∀ (m n : Nat) (s t : State) (k : HaltKind), m ≤ n → runLimited m s = .next t → t.status = .halted k →
    k ≠ .instructionLimitExceeded → runLimited n s = .next t ∧ runUnlimited n s = some (.next t)

/-- read_heap (R81): the bytes from the address on where 0 <= a and a + n <= hlen, an error value otherwise, for a
negative address too. -/
def Obligations.ReadHeapReturnsTheBytes : Prop :=
  ∀ (s : State) (a : Int) (n : Nat),
    ((0 ≤ a ∧ a + n ≤ s.heap.extent) → ∃ bs, s.readHeap a n = some bs ∧ bs.length = n ∧
      ∀ k, k < n → bs[k]? = s.heap.read? (a.toNat + k)) ∧
    (¬ (0 ≤ a ∧ a + n ≤ s.heap.extent) → s.readHeap a n = none)

/-! ### Assembly -/

/-- A label's value is 4 times the number of instructions before its declaration (R66). -/
def Obligations.LabelValueCountsInstructionsBefore : Prop :=
  ∀ (pre post : List Asm.Line) (l : Asm.Line) (n : Asm.Name) (table : List (Asm.Name × Nat)), l.label = some n →
    Asm.labelTable 0 [] (pre ++ l :: post) = .ok table →
    table.lookup n = some (4 * (pre.filter fun x => x.stmt.isSome).length)

/-- A name declared twice is DuplicateLabel, and a list of lines that declares none twice is never so (R66).
That a duplicate is reported before an unresolved name is the model's choice (DESIGN CHOICE, entry 14). -/
def Obligations.DuplicateLabelsAreRejected : Prop :=
  ∀ ls : List Asm.Line,
    (¬ (ls.filterMap fun l => l.label).Nodup → Asm.assembleLines ls = .error .duplicateLabel) ∧
    ((ls.filterMap fun l => l.label).Nodup → Asm.assembleLines ls ≠ .error .duplicateLabel)

/-- A reference to a name no line declares is an error and gives no bytes, UnresolvedSymbol where no name is
declared twice and no label value reaches 2^24 (R66, R67). What comes first among several errors, and the error for
such a value, are the model's choices (DESIGN CHOICE, entries 14 and 15). -/
def Obligations.UndeclaredLabelsAreRejected : Prop :=
  ∀ (ls : List Asm.Line) (l : Asm.Line) (k : Asm.JumpKind) (n : Asm.Name), l ∈ ls → l.stmt = some (.toLabel k n) →
    (∀ m ∈ ls, m.label ≠ some n) →
    (∀ bin, Asm.assembleLines ls ≠ .ok bin) ∧
    ((ls.filterMap fun m => m.label).Nodup → 4 * ls.length < 16777216 →
      Asm.assembleLines ls = .error .unresolvedSymbol)

/-- The assembler's output is a binary that Load accepts (for at most 2^24 bytes of instructions) and whose k-th
word decodes to the k-th instruction of the source, a label standing for its value (R67, R58, R129). -/
def Obligations.AssembledBinaryLoadsAndDecodes : Prop :=
  ∀ (ls : List Asm.Line) (bin : List Byte), Asm.assembleLines ls = .ok bin →
    ∃ (table : List (Asm.Name × Nat)) (is : List Instr), Asm.labelTable 0 [] ls = .ok table ∧
      (ls.filterMap fun l => l.stmt).mapM (Asm.resolveStmt table) = .ok is ∧
      bin.length = 5 + 4 * is.length ∧ (4 * is.length ≤ 16777216 → checkBinary bin = none) ∧
      ∀ (k : Nat) (i : Instr), is[k]? = some i → decode (bin.drop (5 + 4 * k)) = .instr i

/-- The program P1 of 95_test_vectors.md (L1-2), from source text to the bytes the vector gives. -/
def Obligations.ProgramP1AssemblesToItsBytes : Prop :=
  Asm.assemble "LOAD $0 #10\nLOAD $1 #5\nADD $0 $1 $2\nHALT".toList =
    .ok [0x4C, 0x52, 0x56, 0x4D, 0x01, 0x01, 0x00, 0x00, 0x0A, 0x01, 0x01, 0x00, 0x05, 0x02, 0x00, 0x01, 0x02,
      0x00, 0x00, 0x00, 0x00]
end

