-- ==== Sys2Proof/Laws/Decode.lean ====
section
/-! SUPPORT. The laws of the fields, the byte order and the formats of an instruction word. -/

namespace Sys2Proof

/-! ### Bytes and words -/

@[simp] theorem opcodeField_wordOfBytes (b0 b1 b2 b3 : Byte) : opcodeField (wordOfBytes b0 b1 b2 b3) = b0 := by
  apply BitVec.eq_of_getLsbD_eq
  intro i hi
  simp only [opcodeField, wordOfBytes, BitVec.getLsbD_extractLsb', BitVec.getLsbD_append, hi, decide_true,
    Bool.true_and]
  rw [if_neg (by omega), if_neg (by omega), if_neg (by omega)]
  congr 1; omega

@[simp] theorem fieldA_wordOfBytes (b0 b1 b2 b3 : Byte) : fieldA (wordOfBytes b0 b1 b2 b3) = b1 := by
  apply BitVec.eq_of_getLsbD_eq
  intro i hi
  simp only [fieldA, wordOfBytes, BitVec.getLsbD_extractLsb', BitVec.getLsbD_append, hi, decide_true,
    Bool.true_and]
  rw [if_neg (by omega), if_neg (by omega), if_pos (by omega)]
  congr 1; omega

@[simp] theorem fieldB_wordOfBytes (b0 b1 b2 b3 : Byte) : fieldB (wordOfBytes b0 b1 b2 b3) = b2 := by
  apply BitVec.eq_of_getLsbD_eq
  intro i hi
  simp only [fieldB, wordOfBytes, BitVec.getLsbD_extractLsb', BitVec.getLsbD_append, hi, decide_true,
    Bool.true_and]
  rw [if_neg (by omega), if_pos (by omega)]
  congr 1; omega

@[simp] theorem fieldC_wordOfBytes (b0 b1 b2 b3 : Byte) : fieldC (wordOfBytes b0 b1 b2 b3) = b3 := by
  apply BitVec.eq_of_getLsbD_eq
  intro i hi
  simp only [fieldC, wordOfBytes, BitVec.getLsbD_extractLsb', BitVec.getLsbD_append, hi, decide_true,
    Bool.true_and]
  rw [if_pos (by omega)]
  congr 1; omega

/-- A word is its four bytes. -/
@[simp] theorem wordOfBytes_fields (w : Word) : wordOfBytes (opcodeField w) (fieldA w) (fieldB w) (fieldC w) = w := by
  apply BitVec.eq_of_getLsbD_eq
  intro i hi
  simp only [opcodeField, fieldA, fieldB, fieldC, wordOfBytes, BitVec.getLsbD_append, BitVec.getLsbD_extractLsb']
  split_ifs <;> (rw [decide_eq_true (by omega), Bool.true_and]; congr 1; omega)

/-- The value of four bytes as one word, the first most significant (00_scope.md R5). -/
theorem toNat_wordOfBytes (b0 b1 b2 b3 : Byte) : (wordOfBytes b0 b1 b2 b3).toNat =
    b0.toNat * 2 ^ 24 + b1.toNat * 2 ^ 16 + b2.toNat * 2 ^ 8 + b3.toNat := by
  simp only [wordOfBytes, BitVec.toNat_append]
  have h1 := b1.isLt; have h2 := b2.isLt; have h3 := b3.isLt
  rw [← Nat.shiftLeft_add_eq_or_of_lt h1, ← Nat.shiftLeft_add_eq_or_of_lt h2, ← Nat.shiftLeft_add_eq_or_of_lt h3]
  simp only [Nat.shiftLeft_eq]
  omega

/-- The bytes of a word, by its fields. -/
theorem bytesOfWord_eq (w : Word) : bytesOfWord w = [opcodeField w, fieldA w, fieldB w, fieldC w] := rfl

@[simp] theorem length_bytesOfWord (w : Word) : (bytesOfWord w).length = 4 := rfl

/-- The decoder on the bytes of a word is the decoder on the word, whatever follows. -/
@[simp] theorem decode_bytesOfWord (w : Word) (rest : List Byte) : decode (bytesOfWord w ++ rest) = decodeWord w := by
  simp [bytesOfWord_eq, decode]

/-! ### Register fields -/

@[simp] theorem toNat_regByte (r : Reg) : (regByte r).toNat = r.val := by
  simp only [regByte, BitVec.toNat_ofNat]
  omega

@[simp] theorem withRegister_regByte (r : Reg) (k : Reg → Decoded) : withRegister (regByte r) k = k r := by
  have h : (regByte r).toNat < 32 := by simp
  simp [withRegister]

/-- When a register field is accepted (30_encoding.md R54). -/
theorem withRegister_instr {f : Byte} {k : Reg → Decoded} {i : Instr} (h : withRegister f k = .instr i) :
    ∃ r : Reg, f = regByte r ∧ k r = .instr i := by
  unfold withRegister at h
  split at h
  · rename_i hf
    refine ⟨⟨f.toNat, hf⟩, ?_, h⟩
    apply BitVec.eq_of_toNat_eq
    simp
  · cases h

/-- When a reserved byte is accepted (30_encoding.md R53). -/
theorem withReserved_instr {f : Byte} {d : Decoded} {i : Instr} (h : withReserved f d = .instr i) :
    f = 0#8 ∧ d = .instr i := by
  unfold withReserved at h
  split at h
  · exact ⟨‹_›, h⟩
  · cases h

@[simp] theorem withReserved_zero (d : Decoded) : withReserved 0#8 d = d := by simp [withReserved]

/-! ### The six formats as bytes (30_encoding.md R50) -/

theorem encodeN_eq (op : Byte) : encodeN op = wordOfBytes op 0#8 0#8 0#8 := by
  apply BitVec.eq_of_getLsbD_eq
  intro i hi
  simp only [encodeN, wordOfBytes, BitVec.getLsbD_append, BitVec.getLsbD_zero]
  split_ifs <;> first | rfl | omega

theorem encodeR_eq (op : Byte) (a : Reg) : encodeR op a = wordOfBytes op (regByte a) 0#8 0#8 := by
  apply BitVec.eq_of_getLsbD_eq
  intro i hi
  simp only [encodeR, wordOfBytes, BitVec.getLsbD_append, BitVec.getLsbD_zero, Nat.sub_sub]
  split_ifs <;> first | rfl | omega

theorem encodeRR_eq (op : Byte) (a b : Reg) : encodeRR op a b = wordOfBytes op (regByte a) (regByte b) 0#8 := rfl

theorem encodeRRR_eq (op : Byte) (a b c : Reg) :
    encodeRRR op a b c = wordOfBytes op (regByte a) (regByte b) (regByte c) := rfl

/-- Format RI: the immediate's high byte comes first. -/
theorem encodeRI_eq (op : Byte) (a : Reg) (imm : BitVec 16) :
    encodeRI op a imm = wordOfBytes op (regByte a) (imm.extractLsb' 8 8) (imm.extractLsb' 0 8) := by
  apply BitVec.eq_of_getLsbD_eq
  intro i hi
  simp only [encodeRI, wordOfBytes, BitVec.getLsbD_append, BitVec.getLsbD_extractLsb', Nat.sub_sub]
  split_ifs <;> first
    | rfl
    | omega
    | (rw [decide_eq_true (by omega), Bool.true_and]; congr 1; omega)

/-- Format A: the address's high byte comes first. -/
theorem encodeA_eq (op : Byte) (t : BitVec 24) :
    encodeA op t = wordOfBytes op (t.extractLsb' 16 8) (t.extractLsb' 8 8) (t.extractLsb' 0 8) := by
  apply BitVec.eq_of_getLsbD_eq
  intro i hi
  simp only [encodeA, wordOfBytes, BitVec.getLsbD_append, BitVec.getLsbD_extractLsb', Nat.sub_sub]
  split_ifs <;> first
    | rfl
    | omega
    | (rw [decide_eq_true (by omega), Bool.true_and]; congr 1; omega)

@[simp] theorem fieldImm16_encodeRI (op : Byte) (a : Reg) (imm : BitVec 16) :
    fieldImm16 (encodeRI op a imm) = imm := by
  apply BitVec.eq_of_getLsbD_eq
  intro i hi
  simp only [fieldImm16, encodeRI, BitVec.getLsbD_extractLsb', BitVec.getLsbD_append, hi, decide_true,
    Bool.true_and, Nat.zero_add, if_true]

@[simp] theorem fieldAddr24_encodeA (op : Byte) (t : BitVec 24) : fieldAddr24 (encodeA op t) = t := by
  apply BitVec.eq_of_getLsbD_eq
  intro i hi
  simp only [fieldAddr24, encodeA, BitVec.getLsbD_extractLsb', BitVec.getLsbD_append, hi, decide_true,
    Bool.true_and, Nat.zero_add, if_true]

/-- A word of format RI is its opcode, its register byte and its immediate. -/
theorem append_imm16 (w : Word) : opcodeField w ++ fieldA w ++ fieldImm16 w = w := by
  apply BitVec.eq_of_getLsbD_eq
  intro i hi
  simp only [opcodeField, fieldA, fieldImm16, BitVec.getLsbD_append, BitVec.getLsbD_extractLsb']
  split_ifs <;> (rw [decide_eq_true (by omega), Bool.true_and]; congr 1; omega)

/-- A word of format A is its opcode and its address. -/
theorem append_addr24 (w : Word) : opcodeField w ++ fieldAddr24 w = w := by
  apply BitVec.eq_of_getLsbD_eq
  intro i hi
  simp only [opcodeField, fieldAddr24, BitVec.getLsbD_append, BitVec.getLsbD_extractLsb']
  split_ifs <;> (rw [decide_eq_true (by omega), Bool.true_and]; congr 1; omega)

end Sys2Proof
end

