-- ==== Sys2Proof/Laws/Memory.lean ====
section
/-! SUPPORT. The laws of an address space: reading after writing, and the canonical form that every operation
keeps. -/

namespace Sys2Proof.Machine

/-! ### Reading the list after a write -/

/-- In a well-formed list nothing is listed below its lower bound. -/
theorem lookupCell_below {lo hi : Nat} {cells : List Host.Cell} (h : cellsWf lo hi cells = true) {a : Nat}
    (ha : a < lo) : lookupCell a cells = 0#8 := by
  induction cells generalizing lo with
  | nil => rfl
  | cons c rest ih =>
    obtain ⟨k, b⟩ := c
    simp only [cellsWf, Bool.and_eq_true, decide_eq_true_eq] at h
    have hk : k ≠ a := by omega
    simp only [lookupCell, hk, if_false]
    exact ih h.2 (by omega)

/-- In a well-formed list nothing is listed at or above its upper bound. -/
theorem lookupCell_above {lo hi : Nat} {cells : List Host.Cell} (h : cellsWf lo hi cells = true) {a : Nat}
    (ha : hi ≤ a) : lookupCell a cells = 0#8 := by
  induction cells generalizing lo with
  | nil => rfl
  | cons c rest ih =>
    obtain ⟨k, b⟩ := c
    simp only [cellsWf, Bool.and_eq_true, decide_eq_true_eq] at h
    have hk : k ≠ a := by omega
    simp only [lookupCell, hk, if_false]
    exact ih h.2

/-- Every address but the one written reads as before, whatever the list. -/
theorem lookupCell_putCell_ne {a a' : Nat} (hne : a' ≠ a) (b : Byte) (cells : List Host.Cell) :
    lookupCell a' (putCell a b cells) = lookupCell a' cells := by
  induction cells with
  | nil =>
    by_cases hb : b = 0#8 <;> simp [putCell, hb, lookupCell, hne.symm]
  | cons c rest ih =>
    obtain ⟨k, c⟩ := c
    unfold putCell
    split_ifs with hlt hb heq hb
    · rfl
    · simp [lookupCell, hne.symm]
    · simp [lookupCell, heq ▸ hne.symm]
    · simp [lookupCell, heq ▸ hne.symm, hne.symm]
    · simp [lookupCell, ih]

/-- The address written reads as the byte written, in a well-formed list. -/
theorem lookupCell_putCell_self {lo hi : Nat} {cells : List Host.Cell} (h : cellsWf lo hi cells = true)
    (a : Nat) (b : Byte) : lookupCell a (putCell a b cells) = b := by
  induction cells generalizing lo with
  | nil => by_cases hb : b = 0#8 <;> simp [putCell, hb, lookupCell]
  | cons c rest ih =>
    obtain ⟨k, c⟩ := c
    simp only [cellsWf, Bool.and_eq_true, decide_eq_true_eq] at h
    have hrest : ∀ x, x ≤ k → lookupCell x rest = 0#8 := fun x hx => lookupCell_below h.2 (by omega)
    by_cases hlt : a < k
    · by_cases hb : b = 0#8
      · have hk : k ≠ a := by omega
        simp [putCell, hlt, hb, lookupCell, hk, hrest a (by omega)]
      · simp [putCell, hlt, hb, lookupCell]
    · by_cases heq : a = k
      · by_cases hb : b = 0#8
        · subst heq; simp [putCell, hb, hrest a (le_refl a)]
        · simp [putCell, heq, hb, lookupCell]
      · have hk : k ≠ a := fun e => heq e.symm
        simp [putCell, hlt, heq, lookupCell, hk, ih h.2]

/-! ### The canonical form -/

/-- A longer range holds the same list. -/
theorem cellsWf_mono {lo lo' hi hi' : Nat} {cells : List Host.Cell} (h : cellsWf lo hi cells = true)
    (hlo : lo' ≤ lo) (hhi : hi ≤ hi') : cellsWf lo' hi' cells = true := by
  induction cells generalizing lo lo' with
  | nil => rfl
  | cons c rest ih =>
    obtain ⟨k, b⟩ := c
    simp only [cellsWf, Bool.and_eq_true, decide_eq_true_eq] at h ⊢
    exact ⟨⟨⟨by omega, by omega⟩, h.1.2⟩, ih h.2 (le_refl _)⟩

/-- A write inside the range keeps the canonical form. -/
theorem cellsWf_putCell {lo hi a : Nat} {cells : List Host.Cell} (h : cellsWf lo hi cells = true)
    (hlo : lo ≤ a) (hhi : a < hi) (b : Byte) : cellsWf lo hi (putCell a b cells) = true := by
  induction cells generalizing lo with
  | nil => by_cases hb : b = 0#8 <;> simp [putCell, hb, cellsWf, hlo, hhi]
  | cons c rest ih =>
    obtain ⟨k, c⟩ := c
    have h0 := h
    simp only [cellsWf, Bool.and_eq_true, decide_eq_true_eq] at h
    unfold putCell
    split_ifs with hlt hb heq hb
    · exact h0
    · simp only [cellsWf, Bool.and_eq_true, decide_eq_true_eq]
      exact ⟨⟨⟨hlo, hhi⟩, hb⟩, ⟨⟨by omega, h.1.1.2⟩, h.1.2⟩, h.2⟩
    · exact cellsWf_mono h.2 (by omega) (le_refl _)
    · subst heq
      simp only [cellsWf, Bool.and_eq_true, decide_eq_true_eq]
      exact ⟨⟨⟨hlo, hhi⟩, hb⟩, h.2⟩
    · simp only [cellsWf, Bool.and_eq_true, decide_eq_true_eq]
      exact ⟨h.1, ih h.2 (by omega)⟩

/-- The entries of a list of bytes are in canonical form. -/
theorem cellsWf_cellsFrom (a : Nat) (bs : List Byte) : cellsWf a (a + bs.length) (cellsFrom a bs) = true := by
  induction bs generalizing a with
  | nil => rfl
  | cons b rest ih =>
    have h := ih (a + 1)
    rw [show a + 1 + rest.length = a + (b :: rest).length by simp; omega] at h
    by_cases hb : b = 0#8
    · simp only [cellsFrom, hb, if_true]
      exact cellsWf_mono h (by omega) (le_refl _)
    · simp [cellsFrom, hb, cellsWf] at h ⊢
      exact h

/-- The entries of a list of bytes read as those bytes. -/
theorem lookupCell_cellsFrom (a i : Nat) (bs : List Byte) :
    lookupCell (a + i) (cellsFrom a bs) = bs[i]?.getD 0#8 := by
  induction bs generalizing a i with
  | nil => simp [cellsFrom, lookupCell]
  | cons b rest ih =>
    cases i with
    | zero =>
      by_cases hb : b = 0#8
      · simpa [cellsFrom, hb] using lookupCell_below (cellsWf_cellsFrom (a + 1) rest) (Nat.lt_succ_self a)
      · simp [cellsFrom, hb, lookupCell]
    | succ i =>
      have h := ih (a + 1) i
      rw [show a + 1 + i = a + (i + 1) by omega] at h
      by_cases hb : b = 0#8 <;> simp [cellsFrom, hb, lookupCell, h]

/-! ### The operations of an address space -/

/-- The empty space is in canonical form. -/
@[simp] theorem Memory.wf_empty : Memory.empty.wf = true := rfl

/-- The space of a list of bytes is in canonical form. -/
theorem Memory.wf_ofBytes (bs : List Byte) : (Memory.ofBytes bs).wf = true := by
  simpa [Memory.wf, Memory.ofBytes] using cellsWf_cellsFrom 0 bs

/-- The space of a list of bytes reads as that list. -/
theorem Memory.read?_ofBytes (bs : List Byte) (a : Nat) : (Memory.ofBytes bs).read? a = bs[a]? := by
  have h := lookupCell_cellsFrom 0 a bs
  rw [Nat.zero_add] at h
  by_cases ha : a < bs.length
  · simp [Memory.read?, Memory.ofBytes, Memory.byte, ha, h]
  · simp [Memory.read?, Memory.ofBytes, ha]

@[simp] theorem Memory.extent_ofBytes (bs : List Byte) : (Memory.ofBytes bs).extent = bs.length := rfl

@[simp] theorem Memory.extent_setByte (m : Memory) (a : Nat) (b : Byte) : (m.setByte a b).extent = m.extent :=
  rfl

@[simp] theorem Memory.extent_grow (m : Memory) (n : Nat) : (m.grow n).extent = m.extent + n := rfl

@[simp] theorem Memory.byte_grow (m : Memory) (n a : Nat) : (m.grow n).byte a = m.byte a := rfl

/-- Writing a byte inside the extent keeps the canonical form. -/
theorem Memory.wf_setByte {m : Memory} (h : m.wf = true) {a : Nat} (ha : a < m.extent) (b : Byte) :
    (m.setByte a b).wf = true :=
  cellsWf_putCell h (Nat.zero_le a) ha b

/-- Growing keeps the canonical form. -/
theorem Memory.wf_grow {m : Memory} (h : m.wf = true) (n : Nat) : (m.grow n).wf = true :=
  cellsWf_mono h (le_refl _) (Nat.le_add_right _ _)

/-- A byte reads as written in a canonical space. -/
theorem Memory.byte_setByte_self {m : Memory} (h : m.wf = true) (a : Nat) (b : Byte) :
    (m.setByte a b).byte a = b :=
  lookupCell_putCell_self h a b

/-- Every other byte reads as before. -/
theorem Memory.byte_setByte_ne (m : Memory) {a a' : Nat} (hne : a' ≠ a) (b : Byte) :
    (m.setByte a b).byte a' = m.byte a' :=
  lookupCell_putCell_ne hne b m.cells

/-- Past the extent of a canonical space every byte is 0x00, so a space that grows gets bytes 0x00
(20_memory.md R37). -/
theorem Memory.byte_past_extent {m : Memory} (h : m.wf = true) {a : Nat} (ha : m.extent ≤ a) : m.byte a = 0#8 :=
  lookupCell_above h ha

@[simp] theorem Memory.extent_setBytes (m : Memory) (a : Nat) (bs : List Byte) :
    (m.setBytes a bs).extent = m.extent := by
  induction bs generalizing m a with
  | nil => rfl
  | cons b rest ih => simp [Memory.setBytes, ih]

/-- Writing bytes inside the extent keeps the canonical form. -/
theorem Memory.wf_setBytes {m : Memory} (h : m.wf = true) {a : Nat} {bs : List Byte}
    (ha : a + bs.length ≤ m.extent) : (m.setBytes a bs).wf = true := by
  induction bs generalizing m a with
  | nil => exact h
  | cons b rest ih =>
    simp only [List.length_cons] at ha
    exact ih (Memory.wf_setByte h (by omega) b) (by simp; omega)

/-- Bytes outside the range written read as before. -/
theorem Memory.byte_setBytes_outside (m : Memory) {a a' : Nat} {bs : List Byte}
    (hne : a' < a ∨ a + bs.length ≤ a') : (m.setBytes a bs).byte a' = m.byte a' := by
  induction bs generalizing m a with
  | nil => rfl
  | cons b rest ih =>
    simp only [List.length_cons] at hne
    rw [Memory.setBytes, ih _ (by omega), Memory.byte_setByte_ne _ (by omega)]

/-- Bytes inside the range written read as written, in a canonical space that holds the range. -/
theorem Memory.byte_setBytes_inside {m : Memory} (h : m.wf = true) {a : Nat} {bs : List Byte}
    (ha : a + bs.length ≤ m.extent) {k : Nat} (hk : k < bs.length) : (m.setBytes a bs).byte (a + k) = bs[k] := by
  induction bs generalizing m a k with
  | nil => simp at hk
  | cons b rest ih =>
    simp only [List.length_cons] at ha hk
    have hw : (m.setByte a b).wf = true := Memory.wf_setByte h (by omega) b
    cases k with
    | zero =>
      rw [Nat.add_zero, Memory.setBytes, Memory.byte_setBytes_outside _ (Or.inl (Nat.lt_add_one a)),
        Memory.byte_setByte_self h]
      rfl
    | succ k =>
      have := ih (m := m.setByte a b) (a := a + 1) hw (by simp; omega) (k := k) (by omega)
      rw [Memory.setBytes, show a + (k + 1) = a + 1 + k by omega, this]
      rfl

@[simp] theorem Memory.extent_writeWord (m : Memory) (a : Nat) (v : Word) :
    (m.writeWord a v).extent = m.extent := by
  simp [Memory.writeWord]

/-- Writing a word inside the extent keeps the canonical form. -/
theorem Memory.wf_writeWord {m : Memory} (h : m.wf = true) {a : Nat} (ha : a + 4 ≤ m.extent) (v : Word) :
    (m.writeWord a v).wf = true :=
  Memory.wf_setBytes h (by simpa [bytesOfWord] using ha)

/-- A stored word changes its own four bytes alone. -/
theorem Memory.byte_writeWord_outside (m : Memory) {a a' : Nat} (v : Word) (hne : a' < a ∨ a + 4 ≤ a') :
    (m.writeWord a v).byte a' = m.byte a' :=
  Memory.byte_setBytes_outside m (by simpa [bytesOfWord] using hne)

/-- Placing bytes keeps the canonical form. -/
theorem Memory.wf_place {m : Memory} (h : m.wf = true) (a : Nat) (bs : List Byte) : (m.place a bs).wf = true := by
  refine Memory.wf_setBytes ?_ (le_max_right _ _)
  exact cellsWf_mono h (le_refl _) (le_max_left _ _)

/-- The bytes read from an address on, one by one. -/
theorem Memory.getElem?_bytes (m : Memory) (a n k : Nat) :
    (m.bytes a n)[k]? = if k < n then some (m.byte (a + k)) else none := by
  induction n generalizing a k with
  | zero => simp [Memory.bytes]
  | succ n ih =>
    cases k with
    | zero => simp [Memory.bytes]
    | succ k => simp [Memory.bytes, ih, show a + 1 + k = a + (k + 1) by omega]

@[simp] theorem Memory.length_bytes (m : Memory) (a n : Nat) : (m.bytes a n).length = n := by
  induction n generalizing a with
  | zero => rfl
  | succ n ih => simp [Memory.bytes, ih]

end Sys2Proof.Machine
end

