-- ==== Sys2Proof/Laws/State.lean ====
section
/-! SUPPORT. One lemma per field per update of the state, so that no later proof unfolds a record update. -/

namespace Sys2Proof.Machine

variable (s : State)

@[simp] theorem State.writeReg_regs (r : Reg) (v : Word) : (s.writeReg r v).regs = s.regs.set r.val v := rfl
@[simp] theorem State.writeReg_pc (r : Reg) (v : Word) : (s.writeReg r v).pc = s.pc := rfl
@[simp] theorem State.writeReg_flag (r : Reg) (v : Word) : (s.writeReg r v).flag = s.flag := rfl
@[simp] theorem State.writeReg_callStack (r : Reg) (v : Word) : (s.writeReg r v).callStack = s.callStack := rfl
@[simp] theorem State.writeReg_heap (r : Reg) (v : Word) : (s.writeReg r v).heap = s.heap := rfl
@[simp] theorem State.writeReg_prog (r : Reg) (v : Word) : (s.writeReg r v).prog = s.prog := rfl
@[simp] theorem State.writeReg_status (r : Reg) (v : Word) : (s.writeReg r v).status = s.status := rfl

@[simp] theorem State.setFlag_regs (b : Bool) : (s.setFlag b).regs = s.regs := rfl
@[simp] theorem State.setFlag_pc (b : Bool) : (s.setFlag b).pc = s.pc := rfl
@[simp] theorem State.setFlag_flag (b : Bool) : (s.setFlag b).flag = b := rfl
@[simp] theorem State.setFlag_callStack (b : Bool) : (s.setFlag b).callStack = s.callStack := rfl
@[simp] theorem State.setFlag_heap (b : Bool) : (s.setFlag b).heap = s.heap := rfl
@[simp] theorem State.setFlag_prog (b : Bool) : (s.setFlag b).prog = s.prog := rfl
@[simp] theorem State.setFlag_status (b : Bool) : (s.setFlag b).status = s.status := rfl

@[simp] theorem State.setPc_regs (t : Offset) : (s.setPc t).regs = s.regs := rfl
@[simp] theorem State.setPc_pc (t : Offset) : (s.setPc t).pc = t := rfl
@[simp] theorem State.setPc_flag (t : Offset) : (s.setPc t).flag = s.flag := rfl
@[simp] theorem State.setPc_callStack (t : Offset) : (s.setPc t).callStack = s.callStack := rfl
@[simp] theorem State.setPc_heap (t : Offset) : (s.setPc t).heap = s.heap := rfl
@[simp] theorem State.setPc_prog (t : Offset) : (s.setPc t).prog = s.prog := rfl
@[simp] theorem State.setPc_status (t : Offset) : (s.setPc t).status = s.status := rfl

@[simp] theorem State.setHeap_regs (h : Memory) : (s.setHeap h).regs = s.regs := rfl
@[simp] theorem State.setHeap_pc (h : Memory) : (s.setHeap h).pc = s.pc := rfl
@[simp] theorem State.setHeap_flag (h : Memory) : (s.setHeap h).flag = s.flag := rfl
@[simp] theorem State.setHeap_callStack (h : Memory) : (s.setHeap h).callStack = s.callStack := rfl
@[simp] theorem State.setHeap_heap (h : Memory) : (s.setHeap h).heap = h := rfl
@[simp] theorem State.setHeap_prog (h : Memory) : (s.setHeap h).prog = s.prog := rfl
@[simp] theorem State.setHeap_status (h : Memory) : (s.setHeap h).status = s.status := rfl

@[simp] theorem State.push_regs (v : Offset) : (s.push v).regs = s.regs := rfl
@[simp] theorem State.push_pc (v : Offset) : (s.push v).pc = s.pc := rfl
@[simp] theorem State.push_flag (v : Offset) : (s.push v).flag = s.flag := rfl
@[simp] theorem State.push_callStack (v : Offset) : (s.push v).callStack = v :: s.callStack := rfl
@[simp] theorem State.push_heap (v : Offset) : (s.push v).heap = s.heap := rfl
@[simp] theorem State.push_prog (v : Offset) : (s.push v).prog = s.prog := rfl
@[simp] theorem State.push_status (v : Offset) : (s.push v).status = s.status := rfl

@[simp] theorem State.dropTop_regs : s.dropTop.regs = s.regs := rfl
@[simp] theorem State.dropTop_pc : s.dropTop.pc = s.pc := rfl
@[simp] theorem State.dropTop_flag : s.dropTop.flag = s.flag := rfl
@[simp] theorem State.dropTop_callStack : s.dropTop.callStack = s.callStack.tail := rfl
@[simp] theorem State.dropTop_heap : s.dropTop.heap = s.heap := rfl
@[simp] theorem State.dropTop_prog : s.dropTop.prog = s.prog := rfl
@[simp] theorem State.dropTop_status : s.dropTop.status = s.status := rfl

@[simp] theorem State.halt_regs (k : HaltKind) : (s.halt k).regs = s.regs := rfl
@[simp] theorem State.halt_pc (k : HaltKind) : (s.halt k).pc = s.pc := rfl
@[simp] theorem State.halt_flag (k : HaltKind) : (s.halt k).flag = s.flag := rfl
@[simp] theorem State.halt_callStack (k : HaltKind) : (s.halt k).callStack = s.callStack := rfl
@[simp] theorem State.halt_heap (k : HaltKind) : (s.halt k).heap = s.heap := rfl
@[simp] theorem State.halt_prog (k : HaltKind) : (s.halt k).prog = s.prog := rfl
@[simp] theorem State.halt_status (k : HaltKind) : (s.halt k).status = .halted k := rfl

@[simp] theorem State.advance_regs : s.advance.regs = s.regs := rfl
@[simp] theorem State.advance_pc : s.advance.pc = s.pc + 4 := rfl
@[simp] theorem State.advance_flag : s.advance.flag = s.flag := rfl
@[simp] theorem State.advance_callStack : s.advance.callStack = s.callStack := rfl
@[simp] theorem State.advance_heap : s.advance.heap = s.heap := rfl
@[simp] theorem State.advance_prog : s.advance.prog = s.prog := rfl
@[simp] theorem State.advance_status : s.advance.status = s.status := rfl

@[simp] theorem State.nextPc_eq : s.nextPc = s.pc + 4 := rfl

@[simp] theorem State.loadStream_regs (bs : List Byte) : (s.loadStream bs).regs = Vector.replicate 32 0 := rfl
@[simp] theorem State.loadStream_pc (bs : List Byte) : (s.loadStream bs).pc = 0 := rfl
@[simp] theorem State.loadStream_flag (bs : List Byte) : (s.loadStream bs).flag = false := rfl
@[simp] theorem State.loadStream_callStack (bs : List Byte) : (s.loadStream bs).callStack = [] := rfl
@[simp] theorem State.loadStream_heap (bs : List Byte) : (s.loadStream bs).heap = s.heap := rfl
@[simp] theorem State.loadStream_prog (bs : List Byte) : (s.loadStream bs).prog = Memory.ofBytes bs := rfl
@[simp] theorem State.loadStream_status (bs : List Byte) : (s.loadStream bs).status = .running := rfl

@[simp] theorem State.hostReset_regs : s.hostReset.regs = Vector.replicate 32 0 := rfl
@[simp] theorem State.hostReset_pc : s.hostReset.pc = 0 := rfl
@[simp] theorem State.hostReset_flag : s.hostReset.flag = false := rfl
@[simp] theorem State.hostReset_callStack : s.hostReset.callStack = [] := rfl
@[simp] theorem State.hostReset_heap : s.hostReset.heap = Memory.empty := rfl
@[simp] theorem State.hostReset_prog : s.hostReset.prog = s.prog := rfl
@[simp] theorem State.hostReset_status : s.hostReset.status = .running := rfl

/-- The register just written reads back. -/
@[simp] theorem State.readReg_writeReg_self (r : Reg) (v : Word) : (s.writeReg r v).readReg r = v := by
  simp [State.readReg, State.writeReg]

/-- A write to one register changes no other (10_state.md R14). -/
theorem State.readReg_writeReg_ne {r d : Reg} (v : Word) (h : r ≠ d) :
    (s.writeReg d v).readReg r = s.readReg r := by
  have : d.val ≠ r.val := fun e => h (Fin.ext e.symm)
  simp [State.readReg, State.writeReg, Vector.getElem_set_ne _ _ this]

@[simp] theorem State.readReg_setFlag (r : Reg) (b : Bool) : (s.setFlag b).readReg r = s.readReg r := rfl
@[simp] theorem State.readReg_setPc (r : Reg) (t : Offset) : (s.setPc t).readReg r = s.readReg r := rfl
@[simp] theorem State.readReg_setHeap (r : Reg) (h : Memory) : (s.setHeap h).readReg r = s.readReg r := rfl
@[simp] theorem State.readReg_push (r : Reg) (v : Offset) : (s.push v).readReg r = s.readReg r := rfl
@[simp] theorem State.readReg_dropTop (r : Reg) : s.dropTop.readReg r = s.readReg r := rfl
@[simp] theorem State.readReg_halt (r : Reg) (k : HaltKind) : (s.halt k).readReg r = s.readReg r := rfl
@[simp] theorem State.readReg_advance (r : Reg) : s.advance.readReg r = s.readReg r := rfl

end Sys2Proof.Machine
end

