-- ==== Sys2Proof/Laws/Ops.lean ====
section
/-! SUPPORT. For each shared operation, once, everything it can do; proofs cite these and do not unfold it. -/

namespace Sys2Proof.Machine

variable {s t : State}

/-! ### Operand values -/

/-- trunc32 keeps the value modulo 2^32 (00_scope.md R6). -/
theorem toNat_trunc32 (i : Int) : ((trunc32 i).toNat : Int) = i % 4294967296 := by
  simp only [trunc32, BitVec.toNat_ofInt]
  omega

/-- The quotient of R7 is Lean's quotient toward zero. -/
theorem divTowardZero_eq_tdiv (a b : Int) : divTowardZero a b = Int.tdiv a b := by
  unfold divTowardZero
  rcases Int.natAbs_eq a with ha | ha <;> rcases Int.natAbs_eq b with hb | hb <;>
    generalize a.natAbs = m at * <;> generalize b.natAbs = n at * <;> subst ha <;> subst hb <;>
    rcases Nat.eq_zero_or_pos m with hm | hm <;> rcases Nat.eq_zero_or_pos n with hn | hn <;>
    simp_all [Int.sign_natCast_of_ne_zero, Nat.pos_iff_ne_zero]

/-- The sign-extended immediate has the immediate's signed value. -/
theorem toInt_sext16 (imm : BitVec 16) : (sext16 imm).toInt = imm.toInt :=
  BitVec.toInt_signExtend_of_le (by decide)

@[simp] theorem toNat_zext8 (b : Byte) : (zext8 b).toNat = b.toNat := by
  have := b.isLt
  simp only [zext8, BitVec.toNat_setWidth]
  omega

@[simp] theorem toNat_lowByte (v : Word) : (lowByte v).toNat = v.toNat % 256 := by
  simp [lowByte]

/-! ### Halting -/

/-- Raising a halt always answers the halted state. -/
@[simp] theorem State.raise_eq (s : State) (k : HaltKind) : s.raise k = .next (s.halt k) := rfl

/-- The halted state is the old one with another status. -/
theorem State.halt_eq (s : State) (k : HaltKind) : s.halt k = { s with status := .halted k } := rfl

/-! ### Results, comparisons, jumps and heap accesses -/

/-- Writing a result always completes. -/
@[simp] theorem State.writeResult_eq (s : State) (d : Reg) (i : Int) :
    s.writeResult d i = .next ((s.writeReg d (trunc32 i)).advance) := rfl

/-- A comparison always completes. -/
@[simp] theorem State.compare_eq (s : State) (cmp : Word → Word → Bool) (a b : Reg) :
    s.compare cmp a b = .next ((s.setFlag (cmp (s.readReg a) (s.readReg b))).advance) := rfl

/-- All a jump can do: go to a valid target, or halt. -/
theorem State.jump_cases {T : Int} (h : s.jump T = .next t) :
    (s.validTarget T ∧ t = s.setPc (BitVec.ofInt 32 T)) ∨ (¬ s.validTarget T ∧ t = s.halt .jumpOutOfBounds) := by
  unfold State.jump at h
  split at h
  · exact .inl ⟨‹_›, by cases h; rfl⟩
  · exact .inr ⟨‹_›, by cases h; rfl⟩

/-- A jump to a valid target. -/
theorem State.jump_valid {T : Int} (h : s.validTarget T) : s.jump T = .next (s.setPc (BitVec.ofInt 32 T)) :=
  if_pos h

/-- A jump to any other target. -/
theorem State.jump_invalid {T : Int} (h : ¬ s.validTarget T) : s.jump T = .next (s.halt .jumpOutOfBounds) :=
  if_neg h

/-- A valid target within 2^32 is the value of the pc it becomes. -/
theorem toNat_ofInt_target {T : Int} (h0 : 0 ≤ T) (h1 : T < 4294967296) :
    ((BitVec.ofInt 32 T).toNat : Int) = T := by
  simp only [BitVec.toNat_ofInt]
  omega

/-- All a heap access can do: go on at a legal address, or halt. -/
theorem State.heapAccess_cases {r : Reg} {n : Nat} {k : Nat → State} (h : s.heapAccess r n k = .next t) :
    (∃ ea : Nat, s.heapAddr r = ea ∧ ea + n ≤ s.heap.extent ∧ t = k ea) ∨
      (¬ s.heap.inBounds (s.heapAddr r) n ∧ t = s.halt .outOfBounds) := by
  unfold State.heapAccess at h
  split at h
  · rename_i hb
    exact .inl ⟨(s.heapAddr r).toNat, by omega, by omega, by cases h; rfl⟩
  · exact .inr ⟨‹_›, by cases h; rfl⟩

/-- A legal heap access. -/
theorem State.heapAccess_legal {r : Reg} {n : Nat} {k : Nat → State} (h : s.heap.inBounds (s.heapAddr r) n) :
    s.heapAccess r n k = .next (k (s.heapAddr r).toNat) :=
  if_pos h

/-- Any other heap access. -/
theorem State.heapAccess_illegal {r : Reg} {n : Nat} {k : Nat → State} (h : ¬ s.heap.inBounds (s.heapAddr r) n) :
    s.heapAccess r n k = .next (s.halt .outOfBounds) :=
  if_neg h

/-! ### Fetch and step -/

/-- A fetch wholly inside the program finds the four bytes at pc. -/
theorem State.fetch_full (h : s.pc.toNat + 4 ≤ s.prog.extent) :
    s.fetch = [s.prog.byte s.pc.toNat, s.prog.byte (s.pc.toNat + 1), s.prog.byte (s.pc.toNat + 2),
      s.prog.byte (s.pc.toNat + 3)] := by
  have : min 4 (s.prog.extent - s.pc.toNat) = 4 := by omega
  simp [State.fetch, this, Memory.bytes]

/-- A fetch near the end finds fewer than four bytes. -/
theorem State.fetch_short (h : s.prog.extent < s.pc.toNat + 4) : s.fetch.length < 4 := by
  simp only [State.fetch, Memory.length_bytes]
  omega

/-- Fewer than four bytes do not decode (30_encoding.md R56). -/
theorem decode_short {bs : List Byte} (h : bs.length < 4) : decode bs = .error .truncatedInstruction := by
  match bs, h with
  | [], _ | [_], _ | [_, _], _ | [_, _, _], _ => rfl

/-- What decodes has four bytes to read. -/
theorem State.fetch_instr {i : Instr} (h : decode s.fetch = .instr i) : s.pc.toNat + 4 ≤ s.prog.extent := by
  by_contra hc
  rw [decode_short (State.fetch_short (by omega))] at h
  cases h

/-- All a step can do when it answers a next state: nothing, on a halted machine; the end-of-stream halt; the halt
of a decode error; or the decoded instruction (40_cycle.md R69). -/
theorem step_cases (h : step s = .next t) :
    (∃ k, s.status = .halted k ∧ t = s) ∨
    (s.status = .running ∧ s.pc.toNat = s.prog.extent ∧ t = s.halt .normal) ∨
    (∃ e, s.status = .running ∧ s.pc.toNat < s.prog.extent ∧ decode s.fetch = .error e ∧
      t = s.halt (haltOfDecodeError e)) ∨
    (∃ i, s.status = .running ∧ s.pc.toNat + 4 ≤ s.prog.extent ∧ decode s.fetch = .instr i ∧
      exec i s = .next t) := by
  unfold step at h
  split at h
  · rename_i k hk
    exact .inl ⟨k, hk, by cases h; rfl⟩
  · rename_i hr
    split at h
    · exact .inr (.inl ⟨hr, ‹_›, by cases h; rfl⟩)
    · split at h
      · cases h
      · split at h
        · rename_i e he
          exact .inr (.inr (.inl ⟨e, hr, by omega, he, by cases h; rfl⟩))
        · rename_i i hi
          exact .inr (.inr (.inr ⟨i, hr, State.fetch_instr hi, hi, h⟩))

/-- A step of a halted machine. -/
theorem step_halted {k : HaltKind} (h : s.status = .halted k) : step s = .next s := by
  simp [step, h]

/-- A step of a running machine at the end of the stream. -/
theorem step_end (h : s.status = .running) (hp : s.pc.toNat = s.prog.extent) : step s = .next (s.halt .normal) := by
  simp [step, h, hp]

/-- A step of a running machine inside the stream. -/
theorem step_inside (h : s.status = .running) (hp : s.pc.toNat < s.prog.extent) :
    step s = match decode s.fetch with
      | .error e => s.raise (haltOfDecodeError e)
      | .instr i => exec i s := by
  unfold step
  rw [h]
  exact (if_neg (by omega)).trans (if_neg (by omega))

end Sys2Proof.Machine
end

