-- ==== Sys2Proof/Laws/Exec.lean ====
section
/-! SUPPORT. Once, all that the meaning of an instruction can do; the invariants and the frames follow from it. -/

namespace Sys2Proof.Machine

open Sys2Proof.Safety

/-- The target of a jump that is taken (43_control.md R95-R98); CALL and RET stand apart. -/
def jumpTarget (s : State) : Instr → Option Int
  | .jmp t => some (zext24 t)
  | .jmpf r => some ((s.pc.toNat : Int) + sint (s.readReg r))
  | .jmpb r => some ((s.pc.toNat : Int) - sint (s.readReg r))
  | .jeq t => if s.flag then some (zext24 t) else none
  | _ => none

/-- What an instruction that has completed leaves, by kind of instruction. -/
inductive Completed (s : State) : Instr → State → Prop where
  /-- one register written, pc to the next word -/
  | register {i : Instr} {d : Reg} (v : Word) (hd : destination i = some d) :
      Completed s i ((s.writeReg d v).advance)
  /-- the flag written, pc to the next word -/
  | flag {i : Instr} (b : Bool) (hc : isComparison i = true) : Completed s i ((s.setFlag b).advance)
  /-- a jump taken to a valid target -/
  | jump {i : Instr} {T : Int} (ht : jumpTarget s i = some T) (hv : s.validTarget T) :
      Completed s i (s.setPc (BitVec.ofInt 32 T))
  /-- a call -/
  | call {target : BitVec 24} (hv : s.validTarget (zext24 target)) (hd : s.depth < Config.callStackMax) :
      Completed s (.call target) ((s.push s.nextPc).setPc (BitVec.ofInt 32 (zext24 target)))
  /-- a return -/
  | ret {top : Offset} {rest : List Offset} (hs : s.callStack = top :: rest) :
      Completed s .ret (s.dropTop.setPc top)
  /-- only pc moves, to the next word: NOP, or JEQ with the flag false -/
  | advance {i : Instr} (hi : i = .nop ∨ ((∃ target, i = .jeq target) ∧ s.flag = false)) :
      Completed s i s.advance
  /-- the heap made longer -/
  | grow {r : Reg} {n : Nat} (hr : (s.readReg r).toInt = n) (hn : s.heap.extent + n ≤ Config.heapMax) :
      Completed s (.aloc r) ((s.setHeap (s.heap.grow n)).advance)
  /-- a word stored -/
  | storeWord {v a : Reg} {ea : Nat} (ha : s.heapAddr a = ea) (he : ea + 4 ≤ s.heap.extent) :
      Completed s (.stw v a) ((s.setHeap (s.heap.writeWord ea (s.readReg v))).advance)
  /-- a byte stored -/
  | storeByte {v a : Reg} {ea : Nat} (ha : s.heapAddr a = ea) (he : ea + 1 ≤ s.heap.extent) :
      Completed s (.stb v a) ((s.setHeap (s.heap.setByte ea (lowByte (s.readReg v)))).advance)

/-! ### The arm of each instruction -/

section

variable (s : State)

@[simp] theorem exec_halt : exec .halt s = execHalt s := rfl
@[simp] theorem exec_load (d : Reg) (imm : BitVec 16) : exec (.load d imm) s = execLoad d imm s := rfl
@[simp] theorem exec_add (a : Reg) (b : Reg) (d : Reg) : exec (.add a b d) s = execAdd a b d s := rfl
@[simp] theorem exec_sub (a : Reg) (b : Reg) (d : Reg) : exec (.sub a b d) s = execSub a b d s := rfl
@[simp] theorem exec_mul (a : Reg) (b : Reg) (d : Reg) : exec (.mul a b d) s = execMul a b d s := rfl
@[simp] theorem exec_div (a : Reg) (b : Reg) (d : Reg) : exec (.div a b d) s = execDiv a b d s := rfl
@[simp] theorem exec_jmp (t : BitVec 24) : exec (.jmp t) s = execJmp t s := rfl
@[simp] theorem exec_jmpf (r : Reg) : exec (.jmpf r) s = execJmpf r s := rfl
@[simp] theorem exec_jmpb (r : Reg) : exec (.jmpb r) s = execJmpb r s := rfl
@[simp] theorem exec_eq (a : Reg) (b : Reg) : exec (.eq a b) s = execEq a b s := rfl
@[simp] theorem exec_neq (a : Reg) (b : Reg) : exec (.neq a b) s = execNeq a b s := rfl
@[simp] theorem exec_gt (a : Reg) (b : Reg) : exec (.gt a b) s = execGt a b s := rfl
@[simp] theorem exec_lt (a : Reg) (b : Reg) : exec (.lt a b) s = execLt a b s := rfl
@[simp] theorem exec_gte (a : Reg) (b : Reg) : exec (.gte a b) s = execGte a b s := rfl
@[simp] theorem exec_lte (a : Reg) (b : Reg) : exec (.lte a b) s = execLte a b s := rfl
@[simp] theorem exec_jeq (t : BitVec 24) : exec (.jeq t) s = execJeq t s := rfl
@[simp] theorem exec_aloc (r : Reg) : exec (.aloc r) s = execAloc r s := rfl
@[simp] theorem exec_inc (r : Reg) : exec (.inc r) s = execInc r s := rfl
@[simp] theorem exec_dec (r : Reg) : exec (.dec r) s = execDec r s := rfl
@[simp] theorem exec_call (t : BitVec 24) : exec (.call t) s = execCall t s := rfl
@[simp] theorem exec_ret : exec .ret s = execRet s := rfl
@[simp] theorem exec_nop : exec .nop s = execNop s := rfl
@[simp] theorem exec_ldw (a : Reg) (d : Reg) : exec (.ldw a d) s = execLdw a d s := rfl
@[simp] theorem exec_stw (v : Reg) (a : Reg) : exec (.stw v a) s = execStw v a s := rfl
@[simp] theorem exec_ldb (a : Reg) (d : Reg) : exec (.ldb a d) s = execLdb a d s := rfl
@[simp] theorem exec_stb (v : Reg) (a : Reg) : exec (.stb v a) s = execStb v a s := rfl

end

/-! ### All that an instruction can do -/

variable {s t : State}

/-- A jump completes or halts with the kind of the target check. -/
theorem jump_completed {i : Instr} {T : Int} (ht : jumpTarget s i = some T) (hk : .jumpOutOfBounds ∈ ownChecks i)
    (h : s.jump T = .next t) : Completed s i t ∨ ∃ k ∈ ownChecks i, t = s.halt k := by
  rcases State.jump_cases h with ⟨hv, rfl⟩ | ⟨-, rfl⟩
  · exact .inl (.jump ht hv)
  · exact .inr ⟨_, hk, rfl⟩

/-- Every instruction completes, or halts with a kind of its own checks; HALT halts with the normal kind. -/
theorem exec_cases {i : Instr} (h : exec i s = .next t) :
    Completed s i t ∨ (∃ k ∈ ownChecks i, t = s.halt k) ∨ (i = .halt ∧ t = s.halt .normal) := by
  cases i with
  | halt => cases h; exact .inr (.inr ⟨rfl, rfl⟩)
  | nop => cases h; exact .inl (.advance (.inl rfl))
  | load d imm | add a b d | sub a b d | mul a b d | inc d | dec d => cases h; exact .inl (.register _ rfl)
  | eq a b | neq a b | gt a b | lt a b | gte a b | lte a b => cases h; exact .inl (.flag _ rfl)
  | div a b d =>
    simp only [exec, execDiv] at h
    split at h <;> cases h
    · exact .inr (.inl ⟨_, by simp [ownChecks], rfl⟩)
    · exact .inl (.register _ rfl)
  | jmp target => exact (jump_completed rfl (List.mem_singleton_self _) h).imp_right .inl
  | jmpf r => exact (jump_completed rfl (List.mem_singleton_self _) h).imp_right .inl
  | jmpb r => exact (jump_completed rfl (List.mem_singleton_self _) h).imp_right .inl
  | jeq target =>
    simp only [exec, execJeq] at h
    split at h
    · rename_i hf
      exact (jump_completed (by simp [jumpTarget, hf]) (List.mem_singleton_self _) h).imp_right .inl
    · rename_i hf
      cases h; exact .inl (.advance (.inr ⟨⟨_, rfl⟩, Bool.eq_false_iff.mpr hf⟩))
  | call target =>
    simp only [exec, execCall] at h
    split at h
    · cases h; exact .inr (.inl ⟨_, by simp [ownChecks], rfl⟩)
    · split at h <;> cases h
      · exact .inr (.inl ⟨.callStackOverflow, by simp [ownChecks], rfl⟩)
      · exact .inl (.call (not_not.mp ‹_›) (by omega))
  | ret =>
    simp only [exec, execRet] at h
    split at h <;> cases h
    · exact .inr (.inl ⟨_, by simp [ownChecks], rfl⟩)
    · exact .inl (.ret ‹_›)
  | aloc r =>
    have h : execAloc r s = .next t := h
    unfold execAloc at h
    split at h <;> cases h
    · exact .inr (.inl ⟨_, by simp [ownChecks], rfl⟩)
    · rename_i hn
      simp only [sint] at hn
      exact .inl (.grow (Int.toNat_of_nonneg (by omega)).symm (by simp only [sint]; omega))
  | ldw a d =>
    have h : execLdw a d s = .next t := h
    rcases State.heapAccess_cases h with ⟨ea, -, -, rfl⟩ | ⟨-, rfl⟩
    · exact .inl (.register _ rfl)
    · exact .inr (.inl ⟨_, by simp [ownChecks], rfl⟩)
  | ldb a d =>
    have h : execLdb a d s = .next t := h
    rcases State.heapAccess_cases h with ⟨ea, -, -, rfl⟩ | ⟨-, rfl⟩
    · exact .inl (.register _ rfl)
    · exact .inr (.inl ⟨_, by simp [ownChecks], rfl⟩)
  | stw v a =>
    have h : execStw v a s = .next t := h
    rcases State.heapAccess_cases h with ⟨ea, ha, he, rfl⟩ | ⟨-, rfl⟩
    · exact .inl (.storeWord ha he)
    · exact .inr (.inl ⟨_, by simp [ownChecks], rfl⟩)
  | stb v a =>
    have h : execStb v a s = .next t := h
    rcases State.heapAccess_cases h with ⟨ea, ha, he, rfl⟩ | ⟨-, rfl⟩
    · exact .inl (.storeByte ha he)
    · exact .inr (.inl ⟨_, by simp [ownChecks], rfl⟩)

/-- Completing leaves the status as it was. -/
theorem Completed.status_eq {i : Instr} (h : Completed s i t) : t.status = s.status := by
  cases h <;> rfl

end Sys2Proof.Machine
end

