-- ==== Sys2Proof/Laws/PerInstr.lean ====
section
/-! SUPPORT. The per-instruction family EncodesWellFormed: every instruction encodes to a word that passes the
checks of 30_encoding.md R53-R55, a lemma for each constructor. -/

namespace Sys2Proof.Laws.EncodesWellFormed

/-- The encoding of the instruction is a well-formed word. -/
def Statement (i : Instr) : Prop := (encodeRaw i).wellFormed = true

theorem regByteOk (r : Reg) : regFieldOk (regByte r) = true := by
  simp [regFieldOk]

/-- A word of format N under an opcode of that format is well formed. -/
theorem formatN {i : Instr} {op : Byte} (h : encode i = encodeN op)
    (hf : formatOf op = some .n) : Statement i := by
  simp [Statement, encodeRaw, h, encodeN_eq, RawWord.wellFormed, hf, RawWord.registersOk, RawWord.reservedOk]

/-- A word of format R under an opcode of that format is well formed. -/
theorem formatR {i : Instr} {op : Byte} {a : Reg} (h : encode i = encodeR op a)
    (hf : formatOf op = some .r) : Statement i := by
  simp [Statement, encodeRaw, h, encodeR_eq, RawWord.wellFormed, hf, RawWord.registersOk, RawWord.reservedOk,
    regByteOk]

/-- A word of format RR under an opcode of that format is well formed. -/
theorem formatRR {i : Instr} {op : Byte} {a b : Reg} (h : encode i = encodeRR op a b)
    (hf : formatOf op = some .rr) : Statement i := by
  simp [Statement, encodeRaw, h, encodeRR_eq, RawWord.wellFormed, hf, RawWord.registersOk, RawWord.reservedOk,
    regByteOk]

/-- A word of format RRR under an opcode of that format is well formed. -/
theorem formatRRR {i : Instr} {op : Byte} {a b c : Reg} (h : encode i = encodeRRR op a b c)
    (hf : formatOf op = some .rrr) : Statement i := by
  simp [Statement, encodeRaw, h, encodeRRR_eq, RawWord.wellFormed, hf, RawWord.registersOk, RawWord.reservedOk,
    regByteOk]

/-- A word of format RI under an opcode of that format is well formed. -/
theorem formatRI {i : Instr} {op : Byte} {a : Reg} {imm : BitVec 16} (h : encode i = encodeRI op a imm)
    (hf : formatOf op = some .ri) : Statement i := by
  simp [Statement, encodeRaw, h, encodeRI_eq, RawWord.wellFormed, hf, RawWord.registersOk, RawWord.reservedOk,
    regByteOk]

/-- A word of format A under an opcode of that format is well formed. -/
theorem formatA {i : Instr} {op : Byte} {t : BitVec 24} (h : encode i = encodeA op t)
    (hf : formatOf op = some .a) : Statement i := by
  simp [Statement, encodeRaw, h, encodeA_eq, RawWord.wellFormed, hf, RawWord.registersOk, RawWord.reservedOk]

theorem halt : Statement .halt := formatN rfl rfl
theorem load (d : Reg) (imm : BitVec 16) : Statement (.load d imm) := formatRI rfl rfl
theorem add (a b d : Reg) : Statement (.add a b d) := formatRRR rfl rfl
theorem sub (a b d : Reg) : Statement (.sub a b d) := formatRRR rfl rfl
theorem mul (a b d : Reg) : Statement (.mul a b d) := formatRRR rfl rfl
theorem div (a b d : Reg) : Statement (.div a b d) := formatRRR rfl rfl
theorem jmp (t : BitVec 24) : Statement (.jmp t) := formatA rfl rfl
theorem jmpf (r : Reg) : Statement (.jmpf r) := formatR rfl rfl
theorem jmpb (r : Reg) : Statement (.jmpb r) := formatR rfl rfl
theorem eq (a b : Reg) : Statement (.eq a b) := formatRR rfl rfl
theorem neq (a b : Reg) : Statement (.neq a b) := formatRR rfl rfl
theorem gt (a b : Reg) : Statement (.gt a b) := formatRR rfl rfl
theorem lt (a b : Reg) : Statement (.lt a b) := formatRR rfl rfl
theorem gte (a b : Reg) : Statement (.gte a b) := formatRR rfl rfl
theorem lte (a b : Reg) : Statement (.lte a b) := formatRR rfl rfl
theorem jeq (t : BitVec 24) : Statement (.jeq t) := formatA rfl rfl
theorem aloc (r : Reg) : Statement (.aloc r) := formatR rfl rfl
theorem inc (r : Reg) : Statement (.inc r) := formatR rfl rfl
theorem dec (r : Reg) : Statement (.dec r) := formatR rfl rfl
theorem call (t : BitVec 24) : Statement (.call t) := formatA rfl rfl
theorem ret : Statement .ret := formatN rfl rfl
theorem nop : Statement .nop := formatN rfl rfl
theorem ldw (a d : Reg) : Statement (.ldw a d) := formatRR rfl rfl
theorem ldb (a d : Reg) : Statement (.ldb a d) := formatRR rfl rfl
theorem stw (v a : Reg) : Statement (.stw v a) := formatRR rfl rfl
theorem stb (v a : Reg) : Statement (.stb v a) := formatRR rfl rfl

end Sys2Proof.Laws.EncodesWellFormed
end

