-- ==== Sys2Proof/Tests/Slice0.lean ====
section
/-! SUPPORT. The model's own tests. The expected values of part 1 to 5 are those of 95_test_vectors.md (the vector's
name stands with each) or are worked out by hand from the rule named. Part 6 shows, for each statement with
hypotheses, concrete values that meet them. -/

namespace Sys2Proof.Tests

open Sys2Proof Sys2Proof.Machine Sys2Proof.Safety

/-! ## 1. Well-formedness: one ill-formed word for each check (30_encoding.md R53-R55) -/

theorem test_wf_add : (RawWord.mk 0x02 0x1F 0x1F 0x1F).wellFormed = true := by decide -- DE-6
theorem test_wf_load : (RawWord.mk 0x01 0x00 0xFF 0xFF).wellFormed = true := by decide -- DE-11
theorem test_wf_jmp : (RawWord.mk 0x06 0xFF 0xFF 0xFF).wellFormed = true := by decide -- DE-12
theorem test_illformed_opcode : (RawWord.mk 0x1A 0x00 0x00 0x00).opcodeOk = false := by decide -- DE-1
theorem test_illformed_opcode_ff : (RawWord.mk 0xFF 0x00 0x00 0x00).wellFormed = false := by decide -- DE-2
theorem test_illformed_reg_a : (RawWord.mk 0x02 0x20 0x01 0x02).registersOk .rrr = false := by decide -- DE-4
theorem test_illformed_reg_b : (RawWord.mk 0x02 0x00 0x20 0x02).registersOk .rrr = false := by decide
theorem test_illformed_reg_c : (RawWord.mk 0x02 0x00 0x01 0xFF).registersOk .rrr = false := by decide -- DE-5
theorem test_illformed_reg_load : (RawWord.mk 0x01 0xFF 0x00 0x00).registersOk .ri = false := by decide -- DE-10
theorem test_illformed_reg_inc : (RawWord.mk 0x11 0x20 0x00 0x00).registersOk .r = false := by decide
theorem test_illformed_reg_eq : (RawWord.mk 0x09 0x00 0x20 0x00).registersOk .rr = false := by decide
theorem test_illformed_res_halt : (RawWord.mk 0x00 0x00 0x00 0x01).reservedOk .n = false := by decide -- DE-7
theorem test_illformed_res_halt_b1 : (RawWord.mk 0x00 0x01 0x00 0x00).reservedOk .n = false := by decide
theorem test_illformed_res_inc : (RawWord.mk 0x11 0x03 0x00 0x01).reservedOk .r = false := by decide -- DE-8
theorem test_illformed_res_inc_b2 : (RawWord.mk 0x11 0x03 0x01 0x00).reservedOk .r = false := by decide
theorem test_illformed_res_eq : (RawWord.mk 0x09 0x00 0x02 0x01).reservedOk .rr = false := by decide -- DE-9
theorem test_illformed_words : ∀ w ∈ [RawWord.mk 0x1A 0xFF 0xFF 0xFF, ⟨0x02, 0x20, 0x01, 0x02⟩, ⟨0x00, 0, 0, 1⟩],
    w.wellFormed = false := by decide -- DE-3, DE-4, DE-7

/-! ## 2. Decoding: a word of each instruction, written out from R50 and R52 -/

theorem test_decode_halt : decode [0x00, 0x00, 0x00, 0x00] = .instr .halt := by decide -- SY-1
theorem test_decode_load : decode [0x01, 0x05, 0x80, 0x00] = .instr (.load 5 0x8000) := by decide -- MM-4
theorem test_decode_add : decode [0x02, 0x00, 0x01, 0x02] = .instr (.add 0 1 2) := by decide -- L1-1
theorem test_decode_sub : decode [0x03, 0x01, 0x02, 0x03] = .instr (.sub 1 2 3) := by decide -- AR-5
theorem test_decode_mul : decode [0x04, 0x01, 0x02, 0x03] = .instr (.mul 1 2 3) := by decide -- AR-8
theorem test_decode_div : decode [0x05, 0x00, 0x01, 0x02] = .instr (.div 0 1 2) := by decide -- P4
theorem test_decode_jmp : decode [0x06, 0xFF, 0xFF, 0xFC] = .instr (.jmp 0xFFFFFC) := by decide -- L1-1
theorem test_decode_jmpf : decode [0x07, 0x01, 0x00, 0x00] = .instr (.jmpf 1) := by decide -- CT-5
theorem test_decode_jmpb : decode [0x08, 0x01, 0x00, 0x00] = .instr (.jmpb 1) := by decide -- CT-11
theorem test_decode_eq : decode [0x09, 0x00, 0x02, 0x00] = .instr (.eq 0 2) := by decide -- P2
theorem test_decode_neq : decode [0x0A, 0x01, 0x02, 0x00] = .instr (.neq 1 2) := by decide -- CM-1
theorem test_decode_gt : decode [0x0B, 0x01, 0x02, 0x00] = .instr (.gt 1 2) := by decide -- CM-1
theorem test_decode_lt : decode [0x0C, 0x01, 0x02, 0x00] = .instr (.lt 1 2) := by decide -- CM-1
theorem test_decode_gte : decode [0x0D, 0x01, 0x02, 0x00] = .instr (.gte 1 2) := by decide -- CM-1
theorem test_decode_lte : decode [0x0E, 0x01, 0x02, 0x00] = .instr (.lte 1 2) := by decide -- CM-1
theorem test_decode_jeq : decode [0x0F, 0x00, 0x00, 0x20] = .instr (.jeq 0x20) := by decide -- P2
theorem test_decode_aloc : decode [0x10, 0x01, 0x00, 0x00] = .instr (.aloc 1) := by decide -- MM-20
theorem test_decode_inc : decode [0x11, 0x03, 0x00, 0x00] = .instr (.inc 3) := by decide -- AR-20
theorem test_decode_dec : decode [0x12, 0x1F, 0x00, 0x00] = .instr (.dec 31) := by decide -- R52
theorem test_decode_call : decode [0x13, 0x00, 0x00, 0x1C] = .instr (.call 0x1C) := by decide -- P3
theorem test_decode_ret : decode [0x14, 0x00, 0x00, 0x00] = .instr .ret := by decide -- L1-1
theorem test_decode_nop : decode [0x15, 0x00, 0x00, 0x00] = .instr .nop := by decide -- SY-2
theorem test_decode_ldw : decode [0x16, 0x02, 0x03, 0x00] = .instr (.ldw 2 3) := by decide -- P3
theorem test_decode_stw : decode [0x17, 0x03, 0x01, 0x00] = .instr (.stw 3 1) := by decide -- MM-14
theorem test_decode_ldb : decode [0x18, 0x02, 0x04, 0x00] = .instr (.ldb 2 4) := by decide -- P3
theorem test_decode_stb : decode [0x19, 0x1F, 0x1E, 0x00] = .instr (.stb 31 30) := by decide -- L1-1

theorem test_decode_illegal_first : decode [0x1A, 0xFF, 0xFF, 0xFF] = .error .illegalOpcode := by decide -- DE-3
theorem test_decode_reg_32 : decode [0x02, 0x20, 0x01, 0x02] = .error .illegalOperand := by decide -- DE-4
theorem test_decode_reserved : decode [0x00, 0x00, 0x00, 0x01] = .error .illegalOperand := by decide -- DE-7
theorem test_decode_short : decode [0xFF, 0xFF] = .error .truncatedInstruction := by decide -- DE-14
theorem test_table_word : decodeTableWord 32 0x02000102 = some (.add 0 1 2) := by decide -- L1-1
theorem test_encode_bytes : encodeBytes (.load 7 0xFFFF) = [0x01, 0x07, 0xFF, 0xFF] := by decide -- L1-1

/-! ## 3. One step of each instruction -/

/-- The state after a step that answers one. -/
def after (s : State) : Option State :=
  match step s with
  | .next t => some t
  | .fault _ | .refused _ => none

/-- The power-on state with x[1] and x[2] set and the word placed at pc. -/
def two (w : Nat) (x1 x2 : Word) : State :=
  ((State.reset.writeReg 1 x1).writeReg 2 x2).withFetchWord 32 w

/-- What the register holds after the step. -/
def regAfter (r : Reg) (s : State) : Option Word := (after s).map fun t => t.readReg r

/-- The flag after the step. -/
def flagAfter (s : State) : Option Bool := (after s).map fun t => t.flag

/-- pc and the status after the step. -/
def pcAfter (s : State) : Option (Offset × Status) := (after s).map fun t => (t.pc, t.status)

theorem test_add : regAfter 3 (two 0x02010203 10 5) = some 15 := by decide -- AR-1
theorem test_add_wraps : regAfter 3 (two 0x02010203 0x7FFFFFFF 1) = some 0x80000000 := by decide -- AR-2
theorem test_sub : regAfter 3 (two 0x03010203 3 5) = some 0xFFFFFFFE := by decide -- AR-5
theorem test_sub_wraps : regAfter 3 (two 0x03010203 0x80000000 1) = some 0x7FFFFFFF := by decide -- AR-6
theorem test_mul : regAfter 3 (two 0x04010203 0xFFFFFFFD 7) = some 0xFFFFFFEB := by decide -- AR-10
theorem test_mul_wraps : regAfter 3 (two 0x04010203 0x10000 0x10000) = some 0 := by decide -- AR-8
theorem test_div_negative : regAfter 3 (two 0x05010203 0xFFFFFFF9 2) = some 0xFFFFFFFD := by decide -- AR-13
theorem test_div_by_zero : pcAfter (two 0x05010203 5 0) = some (0, .halted .divisionByZero) := by decide -- AR-19
theorem test_inc_wraps : regAfter 1 (two 0x11010000 0xFFFFFFFF 0) = some 0 := by decide -- AR-22 on $1
theorem test_dec_wraps : regAfter 1 (two 0x12010000 0 0) = some 0xFFFFFFFF := by decide -- AR-24 on $1

theorem test_eq : flagAfter (two 0x09010200 4 4) = some true := by decide -- CM-3
theorem test_neq : flagAfter (two 0x0A010200 5 3) = some true := by decide -- CM-1
theorem test_gt_signed : flagAfter (two 0x0B010200 0xFFFFFFFF 1) = some false := by decide -- CM-4
theorem test_gt : flagAfter (two 0x0B010200 0x7FFFFFFF 0x80000000) = some true := by decide -- CM-6
theorem test_lt_signed : flagAfter (two 0x0C010200 0x80000000 0x7FFFFFFF) = some true := by decide -- CM-5
theorem test_lt : flagAfter (two 0x0C010200 5 3) = some false := by decide -- CM-8
theorem test_gte_equal : flagAfter (two 0x0D010200 4 4) = some true := by decide -- CM-3
theorem test_gte_signed : flagAfter (two 0x0D010200 0xFFFFFFFF 1) = some false := by decide -- CM-4
theorem test_lte_equal : flagAfter (two 0x0E010200 4 4) = some true := by decide -- CM-3
theorem test_lte_signed : flagAfter (two 0x0E010200 0x7FFFFFFF 0x80000000) = some false := by decide -- CM-6

/-- A program of 16 bytes 0x00 with the word placed at pc, x[1] set, and a call stack. -/
def flow (w : Nat) (pc : Offset) (flag : Bool) (x1 : Word) (stack : List Offset) : State :=
  State.withFetchWord { State.reset.writeReg 1 x1 with pc := pc, flag := flag, callStack := stack, prog := ⟨16, []⟩ }
    32 w

theorem test_jmp_len : pcAfter (flow 0x06000010 0 false 0 []) = some (16, .running) := by decide -- CT-2
theorem test_jmp_past : pcAfter (flow 0x06000014 0 false 0 []) = some (0, .halted .jumpOutOfBounds) := by
  decide -- CT-3
theorem test_jmpf_back : pcAfter (flow 0x07010000 4 false 0xFFFFFFFC []) = some (0, .running) := by decide -- CT-7
theorem test_jmpf_below : pcAfter (flow 0x07010000 4 false 0xFFFFFFF8 []) = some (4, .halted .jumpOutOfBounds) := by
  decide -- CT-8
theorem test_jmpb_forward : pcAfter (flow 0x08010000 4 false 0xFFFFFFF8 []) = some (12, .running) := by
  decide -- CT-13
theorem test_jmpb_int_min : pcAfter (flow 0x08010000 0 false 0x80000000 []) = some (0, .halted .jumpOutOfBounds) := by
  decide -- CT-14
theorem test_jeq_taken : pcAfter (flow 0x0F000008 0 true 0 []) = some (8, .running) := by decide -- CT-16
theorem test_jeq_not_checked : pcAfter (flow 0x0FFFFFFF 0 false 0 []) = some (4, .running) := by decide -- CT-18
theorem test_call : (after (flow 0x13000008 4 false 0 [])).map (fun t => (t.pc, t.callStack)) = some (8, [8]) := by
  decide -- CT-20
theorem test_call_target_first : pcAfter (flow 0x13000014 4 false 0 (List.replicate 1024 0)) =
    some (4, .halted .jumpOutOfBounds) := by decide -- CT-23
theorem test_ret : (after (flow 0x14000000 8 false 0 [8])).map (fun t => (t.pc, t.callStack)) = some (8, []) := by
  decide -- CT-24
theorem test_ret_empty : pcAfter (flow 0x14000000 8 false 0 []) = some (8, .halted .callStackUnderflow) := by
  decide -- CT-25

/-- The heap 11 22 33 44 55 66 77 88 with x[1] and x[3] set and the word placed at pc. -/
def heaped (w : Nat) (x1 x3 : Word) : State :=
  State.withFetchWord { (State.reset.writeReg 1 x1).writeReg 3 x3 with
    heap := Memory.ofBytes [0x11, 0x22, 0x33, 0x44, 0x55, 0x66, 0x77, 0x88] } 32 w

/-- The first eight bytes of the heap after the step. -/
def heapAfter (s : State) : Option (List Byte) := (after s).map fun t => t.heap.bytes 0 8

theorem test_load_negative : regAfter 5 (heaped 0x01058000 0 0) = some 0xFFFF8000 := by decide -- MM-4
theorem test_ldw_unaligned : regAfter 2 (heaped 0x16010200 1 0) = some 0x22334455 := by decide -- MM-7
theorem test_ldw_past : pcAfter (heaped 0x16010200 5 0) = some (0, .halted .outOfBounds) := by decide -- MM-8
theorem test_ldb : regAfter 2 (heaped 0x18010200 7 0) = some 0x88 := by decide -- MM-11
theorem test_ldb_past : pcAfter (heaped 0x18010200 8 0) = some (0, .halted .outOfBounds) := by decide -- MM-13
theorem test_stw : heapAfter (heaped 0x17030100 2 0xDEADBEEF) =
    some [0x11, 0x22, 0xDE, 0xAD, 0xBE, 0xEF, 0x77, 0x88] := by decide -- MM-14
theorem test_stw_zero_bytes : heapAfter (heaped 0x17010100 4 0) =
    some [0x11, 0x22, 0x33, 0x44, 0x00, 0x00, 0x00, 0x04] := by decide -- MM-19
theorem test_stb : heapAfter (heaped 0x19030100 0 0x12345678) =
    some [0x78, 0x22, 0x33, 0x44, 0x55, 0x66, 0x77, 0x88] := by decide -- MM-16
theorem test_stb_past : pcAfter (heaped 0x19030100 8 1) = some (0, .halted .outOfBounds) := by decide -- MM-18
theorem test_aloc_negative : pcAfter (heaped 0x10010000 0xFFFFFFFF 0) = some (0, .halted .outOfBounds) := by
  decide -- MM-22
/-- MM-21, for every HEAP_MAX that allows it. -/
theorem test_aloc_grows (h : 12 ≤ Config.heapMax) :
    ∃ t, step (heaped 0x10010000 4 0) = .next t ∧ t.heap.extent = 12 ∧
      t.heap.bytes 0 12 = [0x11, 0x22, 0x33, 0x44, 0x55, 0x66, 0x77, 0x88, 0, 0, 0, 0] :=
  ⟨_, if_neg (show ¬ (sint 4 < 0 ∨ Config.heapMax < 8 + (sint 4).toNat) by
    simp only [show sint 4 = 4 from rfl]; omega), rfl, rfl⟩

theorem test_halt : pcAfter (two 0x00000000 0 0) = some (0, .halted .normal) := by decide -- SY-1
theorem test_nop : pcAfter (flow 0x15000000 4 false 0 []) = some (8, .running) := by decide -- SY-2
theorem test_power_on_step : pcAfter State.reset = some (0, .halted .normal) := by decide -- SY-3
theorem test_illegal_operand_first : pcAfter (two 0x05FF0000 0 0) = some (0, .halted .illegalOperand) := by
  decide -- DE-13
theorem test_truncated : pcAfter { State.reset with prog := Memory.ofBytes [0xFF, 0xFF] } =
    some (0, .halted .truncatedInstruction) := by decide -- DE-14

/-! ## 4. Load, reset and run -/

/-- The binary of P1. -/
def binaryP1 : List Byte :=
  [0x4C, 0x52, 0x56, 0x4D, 0x01, 0x01, 0x00, 0x00, 0x0A, 0x01, 0x01, 0x00, 0x05, 0x02, 0x00, 0x01, 0x02,
    0x00, 0x00, 0x00, 0x00]

/-- The state of a result that is a next state. -/
def nextOf : Result → Option State
  | .next t => some t
  | .fault _ | .refused _ => none

theorem test_load_too_short : checkBinary [0x4C, 0x52, 0x56] = some .tooShort := by decide -- LD-1
theorem test_load_bad_magic : checkBinary [0x00, 0x00, 0x00, 0x00, 0x02] = some .badMagic := by decide -- LD-3
theorem test_load_bad_version : checkBinary [0x4C, 0x52, 0x56, 0x4D, 0x02] = some .badVersion := by decide -- LD-4
theorem test_load_header : checkBinary [0x4C, 0x52, 0x56, 0x4D, 0x01] = none := by decide -- SY-4
theorem test_load_keeps_heap : ((heaped 0 0 0).load binaryP1).1.heap.bytes 0 2 = [0x11, 0x22] := by decide -- LD-8
theorem test_reset_keeps_program : (State.reset.load binaryP1).1.hostReset.prog.bytes 0 4 = [0x01, 0, 0, 0x0A] := by
  decide -- LD-9
theorem test_run_one_halt : (nextOf (runBudget 1 (two 0x00000000 0 0))).map State.readStatus =
    some (.halted .normal) := by decide -- SY-6
theorem test_run_budget_out : (nextOf (runBudget 1 (flow 0x15000000 0 false 0 []))).map (fun t => (t.pc, t.status)) =
    some (4, .halted .instructionLimitExceeded) := by decide -- SY-7
theorem test_run_zero : (nextOf (runBudget 0 (two 0x00000000 0 0))).map State.readStatus =
    some (.halted .instructionLimitExceeded) := by decide -- SY-8
theorem test_read_heap : (heaped 0 0 0).readHeap 6 2 = some [0x77, 0x88] ∧ (heaped 0 0 0).readHeap 7 2 = none := by
  decide -- R81
theorem test_read_heap_negative : (heaped 0 0 0).readHeap (-1) 1 = none ∧ (heaped 0 0 0).readHeap (-1) 0 = none := by
  decide -- R81

/-! ## 5. Assembly -/

theorem test_assemble_forward : Asm.assemble "JMP loop\nNOP\nloop: HALT".toList =
    .ok [0x4C, 0x52, 0x56, 0x4D, 0x01, 0x06, 0x00, 0x00, 0x08, 0x15, 0x00, 0x00, 0x00, 0x00, 0x00, 0x00, 0x00] := by
  decide -- P7
theorem test_assemble_duplicate : Asm.assemble "loop: NOP\nloop: HALT".toList = .error .duplicateLabel := by
  decide -- L1-9
theorem test_assemble_unresolved : Asm.assemble "JMP nowhere\nHALT".toList = .error .unresolvedSymbol := by
  decide -- L1-10
theorem test_assemble_kind : Asm.assemble "ADD $0 #1 $2".toList = .error .parseError := by decide -- L1-11
theorem test_assemble_commas : Asm.assemble "add $0, $1 ,$2 ; sum".toList =
    .ok [0x4C, 0x52, 0x56, 0x4D, 0x01, 0x02, 0x00, 0x01, 0x02] := by decide -- R61, R62
theorem test_assemble_leading_zero : Asm.assemble "INC $007".toList =
    .ok [0x4C, 0x52, 0x56, 0x4D, 0x01, 0x11, 0x07, 0x00, 0x00] := by decide -- entry 17, the model's choice
theorem test_assemble_register : Asm.assemble "INC $32".toList = .error .parseError := by decide -- R63
theorem test_assemble_immediate : Asm.assemble "LOAD $0 #32768".toList = .error .parseError := by decide -- R64
theorem test_assemble_address : Asm.assemble "JMP #16777216".toList = .error .parseError ∧
    Asm.assemble "JMP #-4".toList = .error .parseError := by decide -- entry 18, the model's choice
theorem test_assemble_lex : Asm.assemble "NOP !".toList = .error .lexError := by decide -- R67, entry 13

/-! ## 6. The hypotheses of the statements can be met -/

/-- The machine with the binary of P1 loaded. -/
def p1Loaded : State := (State.reset.load binaryP1).1

/-- P1 satisfies the invariant, whatever HEAP_MAX is. -/
theorem witness_inv : MachineInv p1Loaded :=
  ⟨by decide, by decide, by decide, by decide, fun _ h => (List.not_mem_nil h).elim, Nat.zero_le _, by decide,
    by decide⟩

theorem witness_DecodeChecksInOrder_length : [0xFF#8, 0x00, 0x00].length < 4 := by decide
theorem witness_DecodeChecksInOrder_opcode : 0x19 < (0x1A#8).toNat ∧ (0x19#8).toNat ≤ 0x19 := by decide
theorem witness_DecodeChecksInOrder_operand :
    (RawWord.mk 0x19 0x20 0x00 0x00).registersOk .rr = false ∧
    (RawWord.mk 0x19 0x1F 0x1F 0x01).reservedOk .rr = false ∧
    ((RawWord.mk 0x19 0x1F 0x1F 0x00).registersOk .rr = true ∧
      (RawWord.mk 0x19 0x1F 0x1F 0x00).reservedOk .rr = true) := by decide
theorem witness_EncodeInvertsDecode : decodeWord 0x191F1E00#32 = .instr (.stb 31 30) := by decide
theorem witness_StepRunsDecodedInstruction : p1Loaded.status = .running ∧
    p1Loaded.pc.toNat < p1Loaded.prog.extent ∧ decode p1Loaded.fetch = .instr (.load 0 10) := by decide
theorem witness_FetchIsBigEndian : (flow 0 12 false 0 []).pc.toNat = 12 ∧
    12 + 4 ≤ (flow 0 12 false 0 []).prog.extent := by decide
theorem witness_StepChecksInOrder_halted : (State.reset.halt .normal).status = .halted .normal := by decide
theorem witness_StepChecksInOrder_end : State.reset.status = .running ∧
    State.reset.pc.toNat = State.reset.prog.extent := by decide
/-- One byte and three bytes left at pc. -/
theorem witness_StepChecksInOrder_truncated : ∀ n ∈ [1, 3],
    ({ State.reset with prog := ⟨n, []⟩ } : State).pc.toNat < n ∧ n < State.reset.pc.toNat + 4 := by decide
/-- The last whole word of a stream: an illegal opcode, an illegal operand, a well-formed word. -/
theorem witness_StepChecksInOrder_word : State.reset.pc.toNat + 4 ≤ (two 0x1A000000 0 0).prog.extent ∧
    0x19 < (two 0x1A000000 0 0).prog.byte 0 ∧ (two 0x19200000 0 0).prog.byte 0 ≤ 0x19 ∧
    (RawWord.mk 0x19 0x20 0x00 0x00).wellFormed = false ∧ (RawWord.mk 0x19 0x1F 0x1F 0x00).wellFormed = true := by
  decide
theorem witness_HaltIsTerminal : (State.reset.halt .outOfBounds).status = .halted .outOfBounds ∧
    checkBinary [0x4C] = some .tooShort ∧ checkBinary binaryP1 = none := by decide
theorem witness_HaltingStepWritesOnlyStatus : (two 0 0 0).status = .running ∧
    step (two 0 0 0) = .next ((two 0 0 0).halt .normal) ∧ ((two 0 0 0).halt .normal).status = .halted .normal :=
  ⟨rfl, rfl, rfl⟩
theorem witness_InstructionsRaiseOnlyTheirOwnHalts : State.reset.status = .running ∧
    exec .ret State.reset = .next (State.reset.halt .callStackUnderflow) ∧
    (State.reset.halt .callStackUnderflow).status = .halted .callStackUnderflow := ⟨rfl, rfl, rfl⟩
theorem witness_InstructionsRaiseOnlyTheirOwnHalts_call :
    ¬ ((20#24).toNat ≤ (flow 0 4 false 0 (List.replicate 1024 0)).prog.extent ∧ (20#24).toNat % 4 = 0) ∧
    Config.callStackMax ≤ (flow 0 4 false 0 (List.replicate 1024 0)).depth :=
  ⟨by decide, Nat.le_of_eq (List.length_replicate (n := 1024) (a := (0 : Offset))).symm⟩
theorem witness_PcMovesOnlyAsStated : State.reset.status = .running ∧
    exec .halt State.reset = .next (State.reset.halt .normal) ∧
    exec .nop State.reset = .next State.reset.advance ∧ State.reset.advance.status = .running ∧
    isTransfer .nop = false := ⟨rfl, rfl, rfl, rfl, rfl⟩
theorem witness_StepKeepsInvariant : ∃ t, MachineInv p1Loaded ∧ step p1Loaded = .next t :=
  ⟨_, witness_inv, rfl⟩
theorem witness_ReachableStates : ∃ t, Reachable t ∧ t.readReg 0 = 10#32 :=
  ⟨_, .step (.load binaryP1 .powerOn) rfl, by decide⟩
theorem witness_OnlyComparisonsWriteTheFlag : exec .nop State.reset = .next State.reset.advance ∧
    isComparison .nop = false ∧
    ∃ t, step (two 0x09010200 4 4) = .next t ∧ t.flag ≠ (two 0x09010200 4 4).flag :=
  ⟨rfl, rfl, _, rfl, by decide⟩
theorem witness_OnlyTheDestinationRegisterChanges : (∃ t, exec (.add 1 2 3) State.reset = .next t) ∧
    destination (.add 1 2 3) ≠ some 31 := ⟨⟨_, rfl⟩, by decide⟩
theorem witness_OnlyCallAndRetChangeTheCallStack :
    (∃ t, exec (.call 0) State.reset = .next t ∧ t.callStack = [4]) ∧
    (∃ t, exec .ret (flow 0 0 false 0 [8]) = .next t ∧ t.callStack = []) := ⟨⟨_, rfl, rfl⟩, _, rfl, rfl⟩
theorem witness_OnlyHeapInstructionsChangeTheHeap :
    ∃ t, exec .nop (heaped 0 0 0) = .next t ∧ (∀ r, Instr.nop ≠ .aloc r) ∧
      (∀ v a, Instr.nop ≠ .stw v a ∧ Instr.nop ≠ .stb v a) ∧ 7 < (heaped 0 0 0).heap.extent :=
  ⟨_, rfl, nofun, fun _ _ => ⟨nofun, nofun⟩, by decide⟩
theorem witness_NoStepChangesTheProgram : (∃ t, step p1Loaded = .next t) ∧ ∃ t, runBudget 1 p1Loaded = .next t :=
  ⟨⟨_, rfl⟩, _, rfl⟩
theorem witness_Div : (two 0 5 1).readReg 2 ≠ 0#32 ∧ (two 0 5 0).readReg 2 = 0#32 := by decide
/-- JMP, JEQ, CALL: targets 0 and len are valid, len + 4 and 2 are not. -/
theorem witness_targets : ([0#24, 16].all fun t =>
      decide (t.toNat ≤ (flow 0 4 true 0 []).prog.extent ∧ t.toNat % 4 = 0)) = true ∧
    ([20#24, 2].all fun t => decide (¬ (t.toNat ≤ (flow 0 4 true 0 []).prog.extent ∧ t.toNat % 4 = 0))) = true := by
  decide
/-- The valid targets of a relative jump in a stream of 16 bytes. -/
def inSixteen (t : Int) : Bool := decide (0 ≤ t ∧ t ≤ 16 ∧ t % 4 = 0)
/-- JMPF from 4 to 0 and to len, and to -4 and past len; JMPB the other way round. -/
theorem witness_RelativeJumps : (flow 0 4 false 0 []).prog.extent ≤ Config.maxProgramLen ∧
    (flow 0 4 false 0 []).prog.extent = 16 ∧ (flow 0 4 false 0 []).pc.toNat = 4 ∧
    [0xFFFFFFFC#32, 12, 0xFFFFFFF8, 16].map (fun v => inSixteen (4 + v.toInt)) = [true, true, false, false] ∧
    [4#32, 0xFFFFFFF4, 8, 0xFFFFFFF0].map (fun v => inSixteen (4 - v.toInt)) = [true, true, false, false] := by
  decide
theorem witness_Jeq : (flow 0 4 false 0 []).flag = false ∧ (flow 0 4 true 0 []).flag = true := by decide
theorem witness_Call : (flow 0 4 false 0 (List.replicate 1023 0)).depth < Config.callStackMax ∧
    (flow 0 4 false 0 (List.replicate 1024 0)).depth = Config.callStackMax :=
  ⟨Nat.lt_of_le_of_lt (Nat.le_of_eq (List.length_replicate (n := 1023) (a := (0 : Offset)))) (by decide),
    List.length_replicate (n := 1024) (a := (0 : Offset))⟩
theorem witness_Ret : (flow 0 0 false 0 [8, 12]).callStack = 8 :: [12] ∧ State.reset.callStack = [] := by decide
theorem witness_RetReturnsToTheWordAfterCall : ∃ t : State, (flow 0 4 false 0 []).status = .running ∧
    exec (.call 8) (flow 0 4 false 0 []) = .next t ∧ t.status = .running ∧ (flow 0 8 false 0 [8]).callStack = t.callStack :=
  ⟨_, rfl, rfl, rfl, rfl⟩
/-- ALOC: no growth at all; growth by the most HEAP_MAX and a register allow; a negative size; a heap already at
2^31, which no HEAP_MAX lets grow. -/
theorem witness_Aloc :
    (0 ≤ ((two 0 0 0).readReg 1).toInt ∧ (two 0 0 0).heap.extent + ((two 0 0 0).readReg 1).toInt ≤ Config.heapMax) ∧
    (∃ v : Word, 0 ≤ v.toInt ∧ (State.reset.heap.extent : Int) + v.toInt ≤ Config.heapMax ∧
      v.toInt = (min Config.heapMax 2147483647 : Nat)) ∧
    ¬ 0 ≤ ((two 0 0xFFFFFFFF 0).readReg 1).toInt ∧
    ¬ ((2147483648 : Nat) : Int) + ((two 0 1 0).readReg 1).toInt ≤ Config.heapMax := by
  have h : Config.heapMax ≤ 2147483648 := Nat.lt_succ_iff.mp Config.heapMaxOpen.isLt
  refine ⟨⟨by decide, ?_⟩, ⟨BitVec.ofNat 32 (min Config.heapMax 2147483647), ?_⟩, by decide, ?_⟩
  · rw [show ((two 0 0 0).readReg 1).toInt = 0 from rfl, show (two 0 0 0).heap.extent = 0 from rfl]; omega
  · have e : (BitVec.ofNat 32 (min Config.heapMax 2147483647)).toInt = (min Config.heapMax 2147483647 : Nat) := by
      rw [BitVec.toInt_eq_toNat_cond, BitVec.toNat_ofNat]
      have : min Config.heapMax 2147483647 % 2 ^ 32 = min Config.heapMax 2147483647 := Nat.mod_eq_of_lt (by omega)
      rw [this, if_pos (by omega)]
    rw [e, show State.reset.heap.extent = 0 from rfl]
    exact ⟨by omega, by omega, rfl⟩
  · rw [show ((two 0 1 0).readReg 1).toInt = 1 from rfl]; omega
/-- LDW and STW at the first and the last address that holds a word, and just outside on both sides. -/
theorem witness_word_access : (heaped 0 0 0).heap.wf = true ∧
    [0#32, 4, 0xFFFFFFFF, 5].map (fun v => decide
      (0 ≤ (heaped 0 v 0).heapAddr 1 ∧ (heaped 0 v 0).heapAddr 1 + 4 ≤ (heaped 0 v 0).heap.extent)) =
      [true, true, false, false] := by decide
/-- LDB and STB at the first and the last address, and just outside on both sides. -/
theorem witness_byte_access : [0#32, 7, 0xFFFFFFFF, 8].map (fun v => decide
      (0 ≤ (heaped 0 v 0).heapAddr 1 ∧ (heaped 0 v 0).heapAddr 1 + 1 ≤ (heaped 0 v 0).heap.extent)) =
      [true, true, false, false] := by decide
/-- A STW at the last word of the heap, and the states that read it back: byte 0 and byte 3 of it, and the word. -/
theorem witness_StoredWordReadsBackByBytes : ∃ t, (heaped 0 4 9).heap.wf = true ∧ 0 ≤ (heaped 0 4 9).heapAddr 1 ∧
    (heaped 0 4 9).heapAddr 1 + 4 ≤ (heaped 0 4 9).heap.extent ∧ exec (.stw 3 1) (heaped 0 4 9) = .next t ∧
    (∀ k ∈ [0, 3], (t.writeReg 6 (BitVec.ofNat 32 (4 + k))).heap = t.heap ∧
      (t.writeReg 6 (BitVec.ofNat 32 (4 + k))).heapAddr 6 = (heaped 0 4 9).heapAddr 1 + k) :=
  ⟨_, by decide, by decide, by decide, rfl, by decide⟩
/-- Four STB at the addresses 4 to 7, each in the heap the one before left. -/
theorem witness_StoredBytesReadBackAsWord : ∃ (v a : Fin 4 → Reg) (s t : Fin 4 → State) (u : State),
    (s 0).heap.wf = true ∧ 4 + 4 ≤ (s 0).heap.extent ∧ (∀ k : Fin 4, (s k).heapAddr (a k) = 4 + k.val) ∧
    (∀ k : Fin 4, exec (.stb (v k) (a k)) (s k) = .next (t k)) ∧
    (s 1).heap = (t 0).heap ∧ (s 2).heap = (t 1).heap ∧ (s 3).heap = (t 2).heap ∧
    u.heap = (t 3).heap ∧ u.heapAddr 1 = 4 := by
  let m (n : Nat) : Memory := (heaped 0 0 0).heap.setBytes 4 (List.replicate n 9)
  let s (k : Fin 4) : State := { heaped 0 (BitVec.ofNat 32 (4 + k.val)) 9 with heap := m k.val }
  refine ⟨fun _ => 3, fun _ => 1, s, fun k => ({ s k with heap := m (k.val + 1) } : State).advance,
    { heaped 0 4 9 with heap := m 4 }, by decide, by decide, by decide, ?_, rfl, rfl, rfl, rfl, by decide⟩
  intro k
  fin_cases k <;> rfl
theorem witness_NopOnlyAdvances : (flow 0x15000000 4 false 0 []).status = .running ∧
    decode (flow 0x15000000 4 false 0 []).fetch = .instr .nop ∧ (1#64 ≠ 0#64) := by decide
theorem witness_Load : checkBinary binaryP1 = none := by decide
/-- Every check of Load fails on some binary that passes the ones before it, and 2^24 bytes are the limit. -/
theorem witness_LoadChecksInOrder : [0x4C#8, 0x52, 0x56, 0x4D].length < 5 ∧
    [0x4C#8, 0x52, 0x56, 0x4E] ≠ [0x4C#8, 0x52#8, 0x56#8, 0x4D#8] ∧ (0x02#8 ≠ 0x01#8) ∧
    (∃ stream : List Byte, 16777216 < stream.length) ∧ (∃ stream : List Byte, stream.length = 16777216) := by
  refine ⟨by decide, by decide, by decide, ⟨List.replicate (16777216 + 1) 0#8, ?_⟩, ⟨List.replicate 16777216 0#8, ?_⟩⟩
  · rw [List.length_replicate]; exact Nat.lt_succ_self _
  · exact List.length_replicate
theorem witness_RunLoopAsStated : (State.reset.halt .normal).status = .halted .normal ∧
    State.reset.status = .running ∧ (1#64 ≠ 0#64) ∧ step State.reset = .next (State.reset.halt .normal) :=
  ⟨rfl, rfl, by decide, rfl⟩
theorem witness_BudgetHaltKeepsTheLastState : ∃ t, (flow 0x15000000 0 false 0 []).status = .running ∧
    runBudget 1 (flow 0x15000000 0 false 0 []) = .next t ∧ t.status = .halted .instructionLimitExceeded :=
  ⟨_, rfl, rfl, rfl⟩
theorem witness_LargerBudgetSameEnd : ∃ t, 1 ≤ 2 ∧ runLimited 1 State.reset = .next t ∧
    t.status = .halted .normal ∧ HaltKind.normal ≠ .instructionLimitExceeded :=
  ⟨_, by decide, rfl, rfl, by decide⟩
/-- read_heap: the whole heap, no byte at its end, one byte past it, a negative address. -/
theorem witness_ReadHeapReturnsTheBytes : [((0 : Int), 8), (8, 0), (8, 1), (-1, 1)].map (fun (a, n) =>
      decide (0 ≤ a ∧ a + ((n : Nat) : Int) ≤ (heaped 0 0 0).heap.extent)) = [true, true, false, false] := by decide
/-- `x: NOP` before `y:` alone on its line. -/
theorem witness_LabelValueCountsInstructionsBefore : ∃ table,
    Asm.labelTable 0 [] ([⟨some ['x'], some (.fixed .nop)⟩] ++ ⟨some ['y'], none⟩ :: []) = .ok table ∧
    (⟨some ['y'], none⟩ : Asm.Line).label = some ['y'] := ⟨_, rfl, rfl⟩
theorem witness_DuplicateLabelsAreRejected :
    ¬ (([⟨some ['x'], none⟩, ⟨some ['x'], none⟩] : List Asm.Line).filterMap fun l => l.label).Nodup ∧
    (([⟨some ['x'], none⟩, ⟨some ['y'], none⟩] : List Asm.Line).filterMap fun l => l.label).Nodup := by decide
theorem witness_UndeclaredLabelsAreRejected : ∃ (ls : List Asm.Line) (l : Asm.Line), l ∈ ls ∧
    l.stmt = some (.toLabel .jmp ['x']) ∧ (∀ m ∈ ls, m.label ≠ some ['x']) ∧
    (ls.filterMap fun m => m.label).Nodup ∧ 4 * ls.length < 16777216 :=
  ⟨[⟨some ['y'], some (.toLabel .jmp ['x'])⟩], _, List.mem_singleton_self _, rfl, by decide, by decide, by decide⟩
theorem witness_AssembledBinaryLoadsAndDecodes : ∃ (bin : List Byte) (table : List (Asm.Name × Nat)),
    Asm.assembleLines [⟨some ['x'], some (.toLabel .jmp ['x'])⟩] = .ok bin ∧ bin.length = 9 ∧
    Asm.labelTable 0 [] [⟨some ['x'], some (.toLabel .jmp ['x'])⟩] = .ok table ∧ 4 * 1 ≤ 16777216 :=
  ⟨_, _, rfl, rfl, rfl, by decide⟩

end Sys2Proof.Tests
end

section
/-! What a completed instruction leaves unchanged, one lemma per part of the state, and what a run and a Load can
do. The statements of 10_state.md follow from these. -/

namespace Sys2Proof.Machine

open Sys2Proof.Safety

variable {s t : State} {i : Instr}

/-- An instruction that answers a next state has completed or has halted the machine. -/
theorem exec_completed_or_halt (h : exec i s = .next t) : Completed s i t ∨ ∃ k, t = s.halt k := by
  rcases exec_cases h with hc | ⟨k, -, ht⟩ | ⟨-, ht⟩
  · exact .inl hc
  · exact .inr ⟨k, ht⟩
  · exact .inr ⟨.normal, ht⟩

/-! ### What completing leaves, part by part of the state -/

/-- Only control transfers jump (40_cycle.md R75). -/
theorem isTransfer_of_jumpTarget {T : Int} (h : jumpTarget s i = some T) : isTransfer i = true := by
  cases i with
  | jmp | jmpf | jmpb | jeq => rfl
  | _ => cases h

/-- Completing without a transfer goes to the next word (10_state.md R18). -/
theorem Completed.pc_eq (h : Completed s i t) (hi : isTransfer i = false) : t.pc = s.pc + 4 := by
  cases h with
  | jump ht => simp [isTransfer_of_jumpTarget ht] at hi
  | call | ret => cases hi
  | register | flag | advance | grow | storeWord | storeByte => rfl

/-- Completing writes the flag for a comparison only (10_state.md R20). -/
theorem Completed.flag_eq (h : Completed s i t) (hi : isComparison i = false) : t.flag = s.flag := by
  cases h with
  | flag b hc => simp [hc] at hi
  | register | jump | call | ret | advance | grow | storeWord | storeByte => rfl

/-- Completing writes no register but the destination (10_state.md R15). -/
theorem Completed.readReg_eq {r : Reg} (h : Completed s i t) (hr : destination i ≠ some r) :
    t.readReg r = s.readReg r := by
  cases h with
  | register v hd =>
    rw [State.readReg_advance]
    exact State.readReg_writeReg_ne s v fun e => hr (e ▸ hd)
  | flag | jump | call | ret | advance | grow | storeWord | storeByte => rfl

/-- Completing pushes for CALL, pops for RET, and otherwise leaves the call stack (10_state.md R21). -/
theorem Completed.callStack_cases (h : Completed s i t) :
    t.callStack = s.callStack ∨
    ((∃ target, i = .call target) ∧ t.callStack = (s.pc + 4) :: s.callStack ∧ s.depth < Config.callStackMax) ∨
    (i = .ret ∧ s.callStack = t.pc :: t.callStack) := by
  cases h with
  | call hv hd => exact .inr (.inl ⟨⟨_, rfl⟩, rfl, hd⟩)
  | ret hs => exact .inr (.inr ⟨rfl, by simp [hs]⟩)
  | register | flag | jump | advance | grow | storeWord | storeByte => exact .inl rfl

/-- An instruction leaves the heap as it is, makes it longer (ALOC), or stores into it (STW, STB) with its extent
kept (10_state.md R23). -/
theorem exec_heap_cases (h : exec i s = .next t) :
    t.heap = s.heap ∨
    (∃ r n, i = .aloc r ∧ t.heap = s.heap.grow n) ∨
    ((∃ v a, i = .stw v a ∨ i = .stb v a) ∧ t.heap.extent = s.heap.extent) := by
  rcases exec_completed_or_halt h with hc | ⟨k, rfl⟩
  · cases hc with
    | grow => exact .inr (.inl ⟨_, _, rfl, rfl⟩)
    | storeWord => exact .inr (.inr ⟨⟨_, _, .inl rfl⟩, Memory.extent_writeWord ..⟩)
    | storeByte => exact .inr (.inr ⟨⟨_, _, .inr rfl⟩, rfl⟩)
    | register | flag | jump | call | ret | advance => exact .inl rfl
  · exact .inl rfl

/-- Completing never writes the program (20_memory.md R45). -/
theorem Completed.prog_eq (h : Completed s i t) : t.prog = s.prog := by
  cases h <;> rfl

/-- Growing keeps every byte that was there (20_memory.md R37). -/
theorem Memory.read?_grow (m : Memory) (n : Nat) {a : Nat} (ha : a < m.extent) : (m.grow n).read? a = m.read? a := by
  have hg : a < m.extent + n := by omega
  simp [Memory.read?, ha, hg]

/-! ### A step -/

/-- A step that answers a next state has completed the decoded instruction, or has at most set the status. -/
theorem step_completed_or_status (h : step s = .next t) :
    (∃ i, decode s.fetch = .instr i ∧ s.pc.toNat + 4 ≤ s.prog.extent ∧ Completed s i t) ∨
    t = s ∨ ∃ k, t = s.halt k := by
  rcases step_cases h with ⟨k, -, ht⟩ | ⟨-, -, ht⟩ | ⟨e, -, -, -, ht⟩ | ⟨i, -, hp, hi, hx⟩
  · exact .inr (.inl ht)
  · exact .inr (.inr ⟨_, ht⟩)
  · exact .inr (.inr ⟨_, ht⟩)
  · rcases exec_completed_or_halt hx with hc | hk
    · exact .inl ⟨i, hi, hp, hc⟩
    · exact .inr (.inr hk)

/-- A step never writes the program (10_state.md R24). -/
theorem step_prog (h : step s = .next t) : t.prog = s.prog := by
  rcases step_completed_or_status h with ⟨i, -, -, hc⟩ | rfl | ⟨k, rfl⟩
  · exact hc.prog_eq
  · rfl
  · rfl

/-! ### A run with a budget (40_cycle.md R79) -/

/-- A run leaves a halted machine as it is. -/
theorem runLimited_halted {k : HaltKind} (n : Nat) (h : s.status = .halted k) : runLimited n s = .next s := by
  cases n <;> simp [runLimited, h]

/-- With no budget left a running machine halts. -/
theorem runLimited_zero (h : s.status = .running) :
    runLimited 0 s = .next (s.halt .instructionLimitExceeded) := by
  simp [runLimited, h]

/-- With budget left a run that ends takes one step and goes on. -/
theorem runLimited_succ {n : Nat} (hs : s.status = .running) (h : runLimited (n + 1) s = .next t) :
    ∃ u, step s = .next u ∧ runLimited n u = .next t := by
  simp only [runLimited, hs] at h
  split at h
  · exact ⟨_, ‹_›, h⟩
  · cases h
  · cases h

/-- What every step and every halt keeps, a run keeps. -/
theorem runLimited_preserves {P : State → Prop} (hstep : ∀ s t, P s → step s = .next t → P t)
    (hhalt : ∀ s k, P s → P (s.halt k)) {n : Nat} (hs : P s) (h : runLimited n s = .next t) : P t := by
  induction n generalizing s with
  | zero =>
    cases hst : s.status with
    | halted k => rw [runLimited_halted 0 hst] at h; cases h; exact hs
    | running => rw [runLimited_zero hst] at h; cases h; exact hhalt _ _ hs
  | succ n ih =>
    cases hst : s.status with
    | halted k => rw [runLimited_halted (n + 1) hst] at h; cases h; exact hs
    | running =>
      obtain ⟨u, hu, hr⟩ := runLimited_succ hst h
      exact ih (hstep s u hs hu) hr

/-! ### Load (70_reset_and_hazards.md R130, R131) -/

/-- A binary that passes the checks of Load holds a stream of at most MAX_PROGRAM_LEN bytes. -/
theorem length_stream_of_checkBinary {bin : List Byte} (h : checkBinary bin = none) :
    (bin.drop 5).length ≤ Config.maxProgramLen := by
  unfold checkBinary at h
  split_ifs at h with h1 h2 h3 h4
  rw [List.length_drop]
  omega

/-- Load changes nothing, or the binary passes its checks and the stream is loaded. -/
theorem State.load_cases (s : State) (bin : List Byte) :
    (s.load bin).1 = s ∨ (checkBinary bin = none ∧ (s.load bin).1 = s.loadStream (bin.drop 5)) := by
  unfold State.load
  split
  · exact .inl rfl
  · exact .inr ⟨‹_›, rfl⟩

end Sys2Proof.Machine
end

section
/-! The machine invariant: each update of the state keeps it under the condition the update needs; hence every
completed instruction, every step, every run and every operation of the host keeps it. -/

namespace Sys2Proof.Safety

open Sys2Proof.Machine

variable {s t : State} {i : Instr}

/-- A value pc and a call stack entry may have: a multiple of 4 and at most len (10_state.md R19,
43_control.md R100). -/
def AtBoundary (s : State) (p : Offset) : Prop := p.toNat % 4 = 0 ∧ p.toNat ≤ s.prog.extent

/-! ### The updates of the state -/

theorem MachineInv.halt (h : MachineInv s) (k : HaltKind) : MachineInv (s.halt k) := { h with }

theorem MachineInv.writeReg (h : MachineInv s) (r : Reg) (v : Word) : MachineInv (s.writeReg r v) := { h with }

theorem MachineInv.setFlag (h : MachineInv s) (b : Bool) : MachineInv (s.setFlag b) := { h with }

theorem MachineInv.setPc (h : MachineInv s) {p : Offset} (hp : AtBoundary s p) : MachineInv (s.setPc p) :=
  { h with pc_aligned := hp.1, pc_le_len := hp.2 }

theorem MachineInv.setHeap (h : MachineInv s) {m : Memory} (hw : m.wf = true) (hm : m.extent ≤ Config.heapMax) :
    MachineInv (s.setHeap m) :=
  { h with hlen_le_max := hm, heap_wf := hw }

theorem MachineInv.push (h : MachineInv s) {p : Offset} (hd : s.depth < Config.callStackMax)
    (hp : AtBoundary s p) : MachineInv (s.push p) :=
  { h with depth_le_max := hd, entries_valid := List.forall_mem_cons.mpr ⟨hp, h.entries_valid⟩ }

theorem MachineInv.dropTop (h : MachineInv s) : MachineInv s.dropTop where
  __ := h
  depth_le_max := by simpa using Nat.le_add_right_of_le h.depth_le_max
  entries_valid e he := h.entries_valid e (List.mem_of_mem_tail he)

/-! ### The values pc takes -/

/-- The word after one that lies inside the stream begins inside the stream or at its end: len is at most 2^24, so
pc + 4 does not wrap. -/
theorem MachineInv.atBoundary_next (h : MachineInv s) (hp : s.pc.toNat + 4 ≤ s.prog.extent) :
    AtBoundary s (s.pc + 4) := by
  have hlen : s.prog.extent ≤ 16777216 := h.len_le_max
  have hnext : (s.pc + 4).toNat = s.pc.toNat + 4 := by
    rw [BitVec.toNat_add, show BitVec.toNat (4 : Offset) = 4 from rfl]
    omega
  exact ⟨by have := h.pc_aligned; omega, by omega⟩

/-- A target that passes the check of R75 keeps its value as a pc. -/
theorem MachineInv.atBoundary_target (h : MachineInv s) {T : Int} (hv : s.validTarget T) :
    AtBoundary s (BitVec.ofInt 32 T) := by
  obtain ⟨hnonneg, hle, haligned⟩ := hv
  have hlen : s.prog.extent ≤ 16777216 := h.len_le_max
  have hT := toNat_ofInt_target hnonneg (by omega)
  exact ⟨by omega, by omega⟩

theorem MachineInv.advance (h : MachineInv s) (hp : s.pc.toNat + 4 ≤ s.prog.extent) : MachineInv s.advance :=
  h.setPc (h.atBoundary_next hp)

/-! ### Instructions, steps, runs and the host's operations -/

/-- An instruction that completes inside the stream keeps the invariant. -/
theorem MachineInv.completed (h : MachineInv s) (hp : s.pc.toNat + 4 ≤ s.prog.extent) (hc : Completed s i t) :
    MachineInv t := by
  cases hc with
  | register v => exact (h.writeReg _ v).advance hp
  | flag b => exact (h.setFlag b).advance hp
  | jump ht hv => exact h.setPc (h.atBoundary_target hv)
  | call hv hd => exact (h.push hd (h.atBoundary_next hp)).setPc (h.atBoundary_target hv)
  | @ret top rest hs =>
    have htop : AtBoundary s top := h.entries_valid top (by simp [hs])
    exact h.dropTop.setPc htop
  | advance => exact h.advance hp
  | grow hr hn => exact (h.setHeap (Memory.wf_grow h.heap_wf _) hn).advance hp
  | storeWord ha he =>
    exact (h.setHeap (Memory.wf_writeWord h.heap_wf he _) (by simpa using h.hlen_le_max)).advance hp
  | storeByte ha he => exact (h.setHeap (Memory.wf_setByte h.heap_wf he _) h.hlen_le_max).advance hp

theorem MachineInv.step (h : MachineInv s) (hst : step s = .next t) : MachineInv t := by
  rcases step_completed_or_status hst with ⟨i, -, hp, hc⟩ | rfl | ⟨k, rfl⟩
  · exact h.completed hp hc
  · exact h
  · exact h.halt k

theorem MachineInv.runLimited {n : Nat} (h : MachineInv s) (hr : runLimited n s = .next t) : MachineInv t :=
  runLimited_preserves (fun _ _ => MachineInv.step) (fun _ k hs => hs.halt k) h hr

theorem MachineInv.loadStream (h : MachineInv s) {stream : List Byte}
    (hlen : stream.length ≤ Config.maxProgramLen) : MachineInv (s.loadStream stream) where
  pc_aligned := rfl
  pc_le_len := Nat.zero_le _
  len_le_max := hlen
  depth_le_max := Nat.zero_le _
  entries_valid _ he := absurd he List.not_mem_nil
  hlen_le_max := h.hlen_le_max
  heap_wf := h.heap_wf
  prog_wf := Memory.wf_ofBytes stream

theorem MachineInv.load (h : MachineInv s) (bin : List Byte) : MachineInv (s.load bin).1 := by
  rcases s.load_cases bin with hs | ⟨hb, hs⟩
  · rw [hs]; exact h
  · rw [hs]; exact h.loadStream (length_stream_of_checkBinary hb)

/-- A reset needs of the invariant only what it says of the program, which it keeps. -/
theorem MachineInv.hostReset (h : MachineInv s) : MachineInv s.hostReset where
  pc_aligned := rfl
  pc_le_len := Nat.zero_le _
  len_le_max := h.len_le_max
  depth_le_max := Nat.zero_le _
  entries_valid _ he := absurd he List.not_mem_nil
  hlen_le_max := Nat.zero_le _
  heap_wf := Memory.wf_empty
  prog_wf := h.prog_wf

/-- Power-on leaves no program and no heap, so every bound is met (70_reset_and_hazards.md R128). -/
theorem machineInv_reset : MachineInv State.reset where
  pc_aligned := rfl
  pc_le_len := Nat.zero_le _
  len_le_max := Nat.zero_le _
  depth_le_max := Nat.zero_le _
  entries_valid _ he := absurd he List.not_mem_nil
  hlen_le_max := Nat.zero_le _
  heap_wf := Memory.wf_empty
  prog_wf := Memory.wf_empty

end Sys2Proof.Safety
end

section
/-! The statements of 10_state.md: the invariant (O12, O13, O15) and who writes what (O11, O16 to O20). -/

namespace Sys2Proof.Safety

open Sys2Proof.Machine

/-- Settles O13: a step completes an instruction inside the stream or at most sets the status. -/
theorem stepKeepsInvariant : Obligations.StepKeepsInvariant :=
  fun _ _ h hst => h.step hst

/-- Settles O12. -/
theorem powerOnSatisfiesInvariant : Obligations.PowerOnSatisfiesInvariant :=
  machineInv_reset

/-- Settles O15, by induction on how the state is reached. -/
theorem reachableStatesSatisfyInvariant : Obligations.ReachableStatesSatisfyInvariant := by
  intro s hs
  induction hs with
  | powerOn => exact machineInv_reset
  | load bin _ ih => exact ih.load bin
  | reset _ ih => exact ih.hostReset
  | step _ hst ih => exact ih.step hst
  | run m _ hr ih => exact ih.runLimited hr

/-- Settles O11: completing keeps the machine running, so a halted result is the old state with its status set. -/
theorem pcMovesOnlyAsStated : Obligations.PcMovesOnlyAsStated := by
  intro i s t hs hx
  rcases exec_completed_or_halt hx with hc | ⟨k, rfl⟩
  · have ht : t.status = .running := hc.status_eq.trans hs
    exact ⟨fun k hk => by simp [ht] at hk, fun _ hi => hc.pc_eq hi⟩
  · exact ⟨fun _ _ => rfl, fun ht => by simp at ht⟩

/-- Settles O16. -/
theorem onlyComparisonsWriteTheFlag : Obligations.OnlyComparisonsWriteTheFlag := by
  refine ⟨fun i s t hx hi => ?_, fun s t hst hne => ?_⟩
  · rcases exec_completed_or_halt hx with hc | ⟨k, rfl⟩
    · exact hc.flag_eq hi
    · rfl
  · rcases step_completed_or_status hst with ⟨i, hi, -, hc⟩ | rfl | ⟨k, rfl⟩
    · exact ⟨i, hi, Bool.of_not_eq_false fun hcmp => hne (hc.flag_eq hcmp)⟩
    · exact absurd rfl hne
    · exact absurd rfl hne

/-- Settles O17. -/
theorem onlyTheDestinationRegisterChanges : Obligations.OnlyTheDestinationRegisterChanges := by
  intro i s t r hx hr
  rcases exec_completed_or_halt hx with hc | ⟨k, rfl⟩
  · exact hc.readReg_eq hr
  · rfl

/-- Settles O18. -/
theorem onlyCallAndRetChangeTheCallStack : Obligations.OnlyCallAndRetChangeTheCallStack := by
  intro i s t hx
  rcases exec_completed_or_halt hx with hc | ⟨k, rfl⟩
  · exact hc.callStack_cases
  · exact .inl rfl

/-- Settles O19, by the three things an instruction can do to the heap. -/
theorem onlyHeapInstructionsChangeTheHeap : Obligations.OnlyHeapInstructionsChangeTheHeap := by
  intro i s t hx
  rcases exec_heap_cases hx with heq | ⟨r, n, hi, hgrow⟩ | ⟨⟨v, a, hi⟩, hext⟩
  · simp [heq]
  · rw [hgrow]
    exact ⟨Nat.le_add_right .., fun hne => absurd hi (hne r), fun _ a ha => Memory.read?_grow _ n ha⟩
  · refine ⟨hext.ge, fun _ => hext, fun hne => ?_⟩
    obtain ⟨hstw, hstb⟩ := hne v a
    exact absurd hi (not_or.mpr ⟨hstw, hstb⟩)

/-- Settles O20; the run by induction on its budget. -/
theorem noStepChangesTheProgram : Obligations.NoStepChangesTheProgram := by
  refine ⟨fun s t => step_prog, fun m s t hr => ?_⟩
  exact runLimited_preserves (P := fun u => u.prog = s.prog) (fun _ _ hu hst => (step_prog hst).trans hu)
    (fun _ _ hu => hu) rfl hr

end Sys2Proof.Safety
end

section
/-! The two wide fields of an instruction word, and what a word of the heap reads after a store: the byte order of
20_memory.md R32 and R33 as facts about values. The statements of 20_memory.md follow from these. -/

namespace Sys2Proof

/-! ### The value of a field and of a byte of a word -/

/-- The immediate is the third byte and the fourth, the third most significant (20_memory.md R32). -/
theorem toNat_fieldImm16_wordOfBytes (b0 b1 b2 b3 : Byte) :
    (fieldImm16 (wordOfBytes b0 b1 b2 b3)).toNat = b2.toNat * 2 ^ 8 + b3.toNat := by
  have h2 := b2.isLt
  have h3 := b3.isLt
  rw [fieldImm16, BitVec.extractLsb'_toNat, Nat.shiftRight_zero, toNat_wordOfBytes]
  omega

/-- The address is the last three bytes, the first of them most significant (20_memory.md R32). -/
theorem toNat_fieldAddr24_wordOfBytes (b0 b1 b2 b3 : Byte) :
    (fieldAddr24 (wordOfBytes b0 b1 b2 b3)).toNat = b1.toNat * 2 ^ 16 + b2.toNat * 2 ^ 8 + b3.toNat := by
  have h1 := b1.isLt
  have h2 := b2.isLt
  have h3 := b3.isLt
  rw [fieldAddr24, BitVec.extractLsb'_toNat, Nat.shiftRight_zero, toNat_wordOfBytes]
  omega

/-- Byte k of a word, counted from the most significant end (20_memory.md R33). -/
theorem toNat_getElem_bytesOfWord (v : Word) {k : Nat} (hk : k < (bytesOfWord v).length) :
    (bytesOfWord v)[k].toNat = v.toNat / 2 ^ (8 * (3 - k)) % 256 := by
  match k, hk with
  | 0, _ | 1, _ | 2, _ | 3, _ => simp [bytesOfWord, Nat.shiftRight_eq_div_pow]

end Sys2Proof

namespace Sys2Proof.Machine

variable {s t : State}

/-! ### Reading a stored word -/

/-- A stored word's bytes read back most significant first, in a canonical space that holds them. -/
theorem Memory.toNat_byte_writeWord {m : Memory} (h : m.wf = true) {a : Nat} (ha : a + 4 ≤ m.extent) (v : Word)
    {k : Nat} (hk : k < 4) : ((m.writeWord a v).byte (a + k)).toNat = v.toNat / 2 ^ (8 * (3 - k)) % 256 := by
  rw [Memory.writeWord, Memory.byte_setBytes_inside h (by simpa using ha) (by simpa using hk),
    toNat_getElem_bytesOfWord]

/-- Four bytes written from an address on read back as one word, the first most significant. -/
theorem Memory.readWord_setBytes {m : Memory} (h : m.wf = true) {a : Nat} (ha : a + 4 ≤ m.extent)
    (b0 b1 b2 b3 : Byte) : (m.setBytes a [b0, b1, b2, b3]).readWord a = wordOfBytes b0 b1 b2 b3 := by
  have hbyte {k : Nat} (hk : k < 4) : (m.setBytes a [b0, b1, b2, b3]).byte (a + k) = [b0, b1, b2, b3][k] :=
    Memory.byte_setBytes_inside h ha hk
  rw [Memory.readWord, hbyte (k := 1) (by decide), hbyte (k := 2) (by decide), hbyte (k := 3) (by decide)]
  exact congrArg (wordOfBytes · b1 b2 b3) (hbyte (k := 0) (by decide))

/-- A stored word reads back. -/
theorem Memory.readWord_writeWord {m : Memory} (h : m.wf = true) {a : Nat} (ha : a + 4 ≤ m.extent) (v : Word) :
    (m.writeWord a v).readWord a = v := by
  rw [Memory.writeWord, bytesOfWord_eq, Memory.readWord_setBytes h ha, wordOfBytes_fields]

/-! ### The heap instructions at an address inside the extent -/

/-- An access wholly inside the extent goes on at its address. -/
theorem State.heapAccess_at {r : Reg} {n ea : Nat} (ha : s.heapAddr r = ea) (he : ea + n ≤ s.heap.extent)
    (k : Nat → State) : s.heapAccess r n k = .next (k ea) := by
  rw [State.heapAccess_legal (by rw [ha]; omega), ha, Int.toNat_natCast]

/-- LDW inside the extent (44_memory_ops.md R104). -/
theorem exec_ldw_at {a : Reg} {ea : Nat} (ha : s.heapAddr a = ea) (he : ea + 4 ≤ s.heap.extent) (d : Reg) :
    exec (.ldw a d) s = .next ((s.writeReg d (s.heap.readWord ea)).advance) := by
  rw [exec_ldw, execLdw, State.heapAccess_at ha he]

/-- LDB inside the extent (44_memory_ops.md R106). -/
theorem exec_ldb_at {a : Reg} {ea : Nat} (ha : s.heapAddr a = ea) (he : ea + 1 ≤ s.heap.extent) (d : Reg) :
    exec (.ldb a d) s = .next ((s.writeReg d (zext8 (s.heap.byte ea))).advance) := by
  rw [exec_ldb, execLdb, State.heapAccess_at ha he]

/-- STW inside the extent (44_memory_ops.md R105). -/
theorem exec_stw_at {a : Reg} {ea : Nat} (ha : s.heapAddr a = ea) (he : ea + 4 ≤ s.heap.extent) (v : Reg) :
    exec (.stw v a) s = .next ((s.setHeap (s.heap.writeWord ea (s.readReg v))).advance) := by
  rw [exec_stw, execStw, State.heapAccess_at ha he]

/-- STB inside the extent (44_memory_ops.md R107). -/
theorem exec_stb_at {a : Reg} {ea : Nat} (ha : s.heapAddr a = ea) (he : ea + 1 ≤ s.heap.extent) (v : Reg) :
    exec (.stb v a) s = .next ((s.setHeap (s.heap.setByte ea (lowByte (s.readReg v)))).advance) := by
  rw [exec_stb, execStb, State.heapAccess_at ha he]

/-- The heap a STW inside the extent leaves. -/
theorem heap_of_exec_stw {v a : Reg} {ea : Nat} (h : exec (.stw v a) s = .next t) (ha : s.heapAddr a = ea)
    (he : ea + 4 ≤ s.heap.extent) : t.heap = s.heap.writeWord ea (s.readReg v) := by
  rw [exec_stw_at ha he] at h
  cases h
  rfl

/-- The heap a STB inside the extent leaves. -/
theorem heap_of_exec_stb {v a : Reg} {ea : Nat} (h : exec (.stb v a) s = .next t) (ha : s.heapAddr a = ea)
    (he : ea + 1 ≤ s.heap.extent) : t.heap = s.heap.setByte ea (lowByte (s.readReg v)) := by
  rw [exec_stb_at ha he] at h
  cases h
  rfl

end Sys2Proof.Machine
end

section
/-! The statements of 20_memory.md: the byte order of a fetch (O6) and of accesses of mixed width (O41, O42). -/

namespace Sys2Proof.Safety

open Sys2Proof.Machine

/-- Settles O6: the word is `wordOfBytes` of the four bytes fetched. -/
theorem fetchIsBigEndian : Obligations.FetchIsBigEndian := by
  rintro s _ rfl hp
  refine ⟨wordOfBytes (s.prog.byte s.pc.toNat) (s.prog.byte (s.pc.toNat + 1)) (s.prog.byte (s.pc.toNat + 2))
    (s.prog.byte (s.pc.toNat + 3)), ?_, toNat_wordOfBytes .., ?_, toNat_fieldImm16_wordOfBytes ..,
    toNat_fieldAddr24_wordOfBytes ..⟩
  · rw [State.fetch_full hp]
    rfl
  · rw [opcodeField_wordOfBytes]

/-- Settles O41: the heap left is the old one with the word written at ea. -/
theorem storedWordReadsBackByBytes : Obligations.StoredWordReadsBackByBytes := by
  intro v a s t hwf hnonneg hle hx
  obtain ⟨ea, ha⟩ := Int.eq_ofNat_of_zero_le hnonneg
  have he : ea + 4 ≤ s.heap.extent := by omega
  have ht := heap_of_exec_stw hx ha he
  have hext : t.heap.extent = s.heap.extent := by rw [ht, Memory.extent_writeWord]
  refine ⟨fun k r d u hk hu hr => ?_, fun r d u hu hr => ?_⟩
  · have hr : u.heapAddr r = (ea + k : Nat) := by rw [hr, ha, Nat.cast_add]
    refine ⟨_, exec_ldb_at hr (by rw [hu]; omega) d, ?_⟩
    rw [State.readReg_advance, State.readReg_writeReg_self, toNat_zext8, hu, ht]
    exact Memory.toNat_byte_writeWord hwf he _ hk
  · refine ⟨_, exec_ldw_at (hr.trans ha) (by rw [hu]; omega) d, ?_⟩
    rw [State.readReg_advance, State.readReg_writeReg_self, hu, ht]
    exact Memory.readWord_writeWord hwf he _

/-- Settles O42: the four stores together write the list of their low bytes at ea. -/
theorem storedBytesReadBackAsWord : Obligations.StoredBytesReadBackAsWord := by
  intro v a s t ea hwf he haddr hx h1 h2 h3 r d u hu hr
  have hstore (k : Fin 4) (hk : (s k).heap.extent = (s 0).heap.extent) :
      (t k).heap = (s k).heap.setByte (ea + k.val) (lowByte ((s k).readReg (v k))) :=
    heap_of_exec_stb (hx k) (haddr k) (by omega)
  have ht0 := hstore 0 rfl
  have ht1 := hstore 1 (by simp [h1, ht0])
  have ht2 := hstore 2 (by simp [h2, ht1, h1, ht0])
  have ht3 := hstore 3 (by simp [h3, ht2, h2, ht1, h1, ht0])
  have hheap : u.heap = (s 0).heap.setBytes ea [lowByte ((s 0).readReg (v 0)), lowByte ((s 1).readReg (v 1)),
      lowByte ((s 2).readReg (v 2)), lowByte ((s 3).readReg (v 3))] := by
    rw [hu, ht3, h3, ht2, h2, ht1, h1, ht0]
    rfl
  refine ⟨_, exec_ldw_at hr (by rw [hheap, Memory.extent_setBytes]; exact he) d, ?_⟩
  rw [State.readReg_advance, State.readReg_writeReg_self, hheap, Memory.readWord_setBytes hwf he, toNat_wordOfBytes]
  simp only [toNat_lowByte]

end Sys2Proof.Safety
end

section
/-! The decoder by format. Each format's decoder inverts its encoder and accepts exactly the words whose register
fields and reserved bytes pass the checks of 30_encoding.md R53 and R54; the table of R52 is walked through once in
each direction, in `decodeWord_encode` and `decodeWord_decodesBy`. -/

namespace Sys2Proof

variable {w : Word} {i : Instr} {d : Decoded} {f : Format}

/-! ### What a format's encoder writes -/

@[simp] theorem opcodeField_encodeN (op : Byte) : opcodeField (encodeN op) = op := by simp [encodeN_eq]

@[simp] theorem opcodeField_encodeR (op : Byte) (a : Reg) : opcodeField (encodeR op a) = op := by simp [encodeR_eq]

@[simp] theorem opcodeField_encodeRR (op : Byte) (a b : Reg) : opcodeField (encodeRR op a b) = op := by
  simp [encodeRR_eq]

@[simp] theorem opcodeField_encodeRRR (op : Byte) (a b c : Reg) : opcodeField (encodeRRR op a b c) = op := by
  simp [encodeRRR_eq]

@[simp] theorem opcodeField_encodeRI (op : Byte) (a : Reg) (imm : BitVec 16) :
    opcodeField (encodeRI op a imm) = op := by
  simp [encodeRI_eq]

@[simp] theorem opcodeField_encodeA (op : Byte) (t : BitVec 24) : opcodeField (encodeA op t) = op := by
  simp [encodeA_eq]

@[simp] theorem fieldA_encodeRI (op : Byte) (a : Reg) (imm : BitVec 16) : fieldA (encodeRI op a imm) = regByte a := by
  simp [encodeRI_eq]

/-! ### A format's decoder after its encoder -/

@[simp] theorem decodeN_encodeN (op : Byte) (i : Instr) : decodeN (encodeN op) i = .instr i := by
  simp [decodeN, encodeN_eq]

@[simp] theorem decodeR_encodeR (op : Byte) (a : Reg) (mk : Reg → Instr) :
    decodeR (encodeR op a) mk = .instr (mk a) := by
  simp [decodeR, encodeR_eq]

@[simp] theorem decodeRR_encodeRR (op : Byte) (a b : Reg) (mk : Reg → Reg → Instr) :
    decodeRR (encodeRR op a b) mk = .instr (mk a b) := by
  simp [decodeRR, encodeRR_eq]

@[simp] theorem decodeRRR_encodeRRR (op : Byte) (a b c : Reg) (mk : Reg → Reg → Reg → Instr) :
    decodeRRR (encodeRRR op a b c) mk = .instr (mk a b c) := by
  simp [decodeRRR, encodeRRR_eq]

@[simp] theorem decodeRI_encodeRI (op : Byte) (a : Reg) (imm : BitVec 16) (mk : Reg → BitVec 16 → Instr) :
    decodeRI (encodeRI op a imm) mk = .instr (mk a imm) := by
  simp [decodeRI]

@[simp] theorem decodeA_encodeA (op : Byte) (t : BitVec 24) (mk : BitVec 24 → Instr) :
    decodeA (encodeA op t) mk = .instr (mk t) := by
  simp [decodeA]

/-- The table of 30_encoding.md R52 from the instruction's side: the opcode selects the format the instruction was
encoded in. -/
theorem decodeWord_encode (i : Instr) : decodeWord (encode i) = .instr i := by
  cases i <;> simp [encode, decodeWord]

/-- The round trip on the stream (30_encoding.md R58); bytes after the four are not read (R48). -/
theorem decode_encodeBytes_append (i : Instr) (rest : List Byte) : decode (encodeBytes i ++ rest) = .instr i := by
  rw [encodeBytes, decode_bytesOfWord, decodeWord_encode]

/-! ### The decoder by format -/

/-- `DecodesBy w f d`: d is what the decoder of format f answers on w, for an instruction that the encoder writes in
format f with w's opcode. -/
inductive DecodesBy (w : Word) : Format → Decoded → Prop
  | n {i : Instr} (h : encode i = encodeN (opcodeField w)) : DecodesBy w .n (decodeN w i)
  | r {mk : Reg → Instr} (h : ∀ a, encode (mk a) = encodeR (opcodeField w) a) : DecodesBy w .r (decodeR w mk)
  | rr {mk : Reg → Reg → Instr} (h : ∀ a b, encode (mk a b) = encodeRR (opcodeField w) a b) :
      DecodesBy w .rr (decodeRR w mk)
  | rrr {mk : Reg → Reg → Reg → Instr} (h : ∀ a b c, encode (mk a b c) = encodeRRR (opcodeField w) a b c) :
      DecodesBy w .rrr (decodeRRR w mk)
  | ri {mk : Reg → BitVec 16 → Instr} (h : ∀ a imm, encode (mk a imm) = encodeRI (opcodeField w) a imm) :
      DecodesBy w .ri (decodeRI w mk)
  | a {mk : BitVec 24 → Instr} (h : ∀ t, encode (mk t) = encodeA (opcodeField w) t) : DecodesBy w .a (decodeA w mk)

theorem opcodeField_eq {n : Nat} (h : (opcodeField w).toNat = n) : opcodeField w = BitVec.ofNat 8 n := by
  rw [← h, BitVec.ofNat_toNat, BitVec.setWidth_eq]

/-- The table of 30_encoding.md R52 from the word's side: a legal opcode is decoded in the format `formatOf` gives. -/
theorem decodeWord_decodesBy (h : (opcodeField w).toNat ≤ 0x19) :
    ∃ f, formatOf (opcodeField w) = some f ∧ DecodesBy w f (decodeWord w) := by
  unfold decodeWord
  split
  case h_1 hop | h_21 hop | h_22 hop =>
    exact ⟨.n, by simp [formatOf, hop], .n (by rw [opcodeField_eq hop]; rfl)⟩
  case h_2 hop => exact ⟨.ri, by simp [formatOf, hop], .ri fun _ _ => by rw [opcodeField_eq hop]; rfl⟩
  case h_3 hop | h_4 hop | h_5 hop | h_6 hop =>
    exact ⟨.rrr, by simp [formatOf, hop], .rrr fun _ _ _ => by rw [opcodeField_eq hop]; rfl⟩
  case h_7 hop | h_16 hop | h_20 hop =>
    exact ⟨.a, by simp [formatOf, hop], .a fun _ => by rw [opcodeField_eq hop]; rfl⟩
  case h_8 hop | h_9 hop | h_17 hop | h_18 hop | h_19 hop =>
    exact ⟨.r, by simp [formatOf, hop], .r fun _ => by rw [opcodeField_eq hop]; rfl⟩
  case h_27 =>
    simp only [imp_false] at *
    omega
  all_goals
    rename_i hop
    exact ⟨.rr, by simp [formatOf, hop], .rr fun _ _ => by rw [opcodeField_eq hop]; rfl⟩

/-- An opcode above the table (30_encoding.md R55). -/
theorem decodeWord_illegalOpcode (h : 0x19 < (opcodeField w).toNat) : decodeWord w = .error .illegalOpcode := by
  unfold decodeWord
  split
  case h_27 => rfl
  all_goals omega

/-- An opcode that decodes is in the table. -/
theorem opcodeField_le_of_decodeWord (h : decodeWord w = .instr i) : (opcodeField w).toNat ≤ 0x19 := by
  by_contra hop
  rw [decodeWord_illegalOpcode (by omega)] at h
  cases h

/-! ### What is decoded encodes to the word -/

/-- The fields an accepted word holds are those the encoder writes, format by format. -/
theorem DecodesBy.encode_eq (hd : DecodesBy w f d) (h : d = .instr i) : encode i = w := by
  rw [← wordOfBytes_fields w]
  cases hd with
  | n henc =>
    obtain ⟨hA, h⟩ := withReserved_instr h
    obtain ⟨hB, h⟩ := withReserved_instr h
    obtain ⟨hC, h⟩ := withReserved_instr h
    cases h
    rw [henc, encodeN_eq, hA, hB, hC]
  | r henc =>
    obtain ⟨a, hA, h⟩ := withRegister_instr h
    obtain ⟨hB, h⟩ := withReserved_instr h
    obtain ⟨hC, h⟩ := withReserved_instr h
    cases h
    rw [henc, encodeR_eq, hA, hB, hC]
  | rr henc =>
    obtain ⟨a, hA, h⟩ := withRegister_instr h
    obtain ⟨b, hB, h⟩ := withRegister_instr h
    obtain ⟨hC, h⟩ := withReserved_instr h
    cases h
    rw [henc, encodeRR_eq, hA, hB, hC]
  | rrr henc =>
    obtain ⟨a, hA, h⟩ := withRegister_instr h
    obtain ⟨b, hB, h⟩ := withRegister_instr h
    obtain ⟨c, hC, h⟩ := withRegister_instr h
    cases h
    rw [henc, encodeRRR_eq, hA, hB, hC]
  | ri henc =>
    obtain ⟨a, hA, h⟩ := withRegister_instr h
    cases h
    rw [henc, encodeRI, ← hA, append_imm16, wordOfBytes_fields]
  | a henc =>
    cases h
    rw [henc, encodeA, append_addr24, wordOfBytes_fields]

/-- The converse of the round trip (30_encoding.md R58). -/
theorem encode_of_decodeWord (h : decodeWord w = .instr i) : encode i = w := by
  obtain ⟨f, -, hd⟩ := decodeWord_decodesBy (opcodeField_le_of_decodeWord h)
  exact hd.encode_eq h

/-! ### The checks of the register fields and the reserved bytes -/

/-- `Checked ok d`: d is an instruction if the check ok passes and IllegalOperand if it fails. -/
structure Checked (ok : Bool) (d : Decoded) : Prop where
  accepts : ok = true → ∃ i, d = .instr i
  rejects : ok = false → d = .error .illegalOperand

theorem Checked.instr (i : Instr) : Checked true (.instr i) := ⟨fun _ => ⟨i, rfl⟩, nofun⟩

theorem Checked.illegalOperand : Checked false (.error .illegalOperand) := ⟨nofun, fun _ => rfl⟩

/-- A register field adds its own check before those of the rest of the word (30_encoding.md R54). -/
theorem Checked.register {ok : Bool} {k : Reg → Decoded} (h : ∀ r, Checked ok (k r)) (b : Byte) :
    Checked (regFieldOk b && ok) (withRegister b k) := by
  unfold withRegister regFieldOk
  split_ifs with hb
  · simpa [hb] using h ⟨b.toNat, hb⟩
  · simpa [hb] using Checked.illegalOperand

/-- So does a reserved byte (30_encoding.md R53). -/
theorem Checked.reserved {ok : Bool} (h : Checked ok d) (b : Byte) : Checked (b == 0#8 && ok) (withReserved b d) := by
  unfold withReserved
  split_ifs with hb
  · simpa [hb] using h
  · rw [beq_false_of_ne hb, Bool.false_and]
    exact .illegalOperand

/-- A format's decoder makes exactly the checks of that format. -/
theorem DecodesBy.checked (hd : DecodesBy w f d) {r : RawWord}
    (hr : r = ⟨opcodeField w, fieldA w, fieldB w, fieldC w⟩) : Checked (r.registersOk f && r.reservedOk f) d := by
  subst hr
  cases hd with
  | n => simpa [decodeN, RawWord.registersOk, RawWord.reservedOk, Bool.and_assoc]
      using (((Checked.instr _).reserved _).reserved _).reserved _
  | r => simpa [decodeR, RawWord.registersOk, RawWord.reservedOk, Bool.and_assoc]
      using Checked.register (fun _ => ((Checked.instr _).reserved _).reserved _) _
  | rr => simpa [decodeRR, RawWord.registersOk, RawWord.reservedOk, Bool.and_assoc]
      using Checked.register (fun _ => .register (fun _ => (Checked.instr _).reserved _) _) _
  | rrr => simpa [decodeRRR, RawWord.registersOk, RawWord.reservedOk, Bool.and_assoc]
      using Checked.register (fun _ => .register (fun _ => .register (fun _ => Checked.instr _) _) _) _
  | ri => simpa [decodeRI, RawWord.registersOk, RawWord.reservedOk]
      using Checked.register (fun _ => Checked.instr _) _
  | a => exact Checked.instr _

/-- The length check comes first (30_encoding.md R56). -/
theorem decode_of_length_lt {bs : List Byte} (h : bs.length < 4) : decode bs = .error .truncatedInstruction := by
  match bs, h with
  | [], _ | [_], _ | [_, _], _ | [_, _, _], _ => rfl

/-- An instruction decoded from four bytes encodes to them. -/
theorem encodeBytes_of_decodeWord {b0 b1 b2 b3 : Byte} (h : decodeWord (wordOfBytes b0 b1 b2 b3) = .instr i) :
    encodeBytes i = [b0, b1, b2, b3] := by
  rw [encodeBytes, encode_of_decodeWord h, bytesOfWord_eq]
  simp

end Sys2Proof
end

section
/-! The statements of 30_encoding.md about the decoder and the encoder (O1 to O4). -/

namespace Sys2Proof.Safety

open Sys2Proof.Machine

/-- Settles O2: the opcode selects the format the instruction was encoded in. -/
theorem decodeInvertsEncode : Obligations.DecodeInvertsEncode :=
  decode_encodeBytes_append

/-- Settles O3. -/
theorem encodeInvertsDecode : Obligations.EncodeInvertsDecode :=
  ⟨fun _ _ => encode_of_decodeWord,
    fun _ _ _ hv hw => (encode_of_decodeWord hv).symm.trans (encode_of_decodeWord hw)⟩

/-- Settles O4: the format of a legal opcode makes the checks of R53 and R54. -/
theorem decodeChecksInOrder : Obligations.DecodeChecksInOrder := by
  refine ⟨fun _ => decode_of_length_lt, fun b0 b1 b2 b3 rest => ⟨fun hop => ?_, fun hop => ?_⟩⟩
  · exact decodeWord_illegalOpcode (by rwa [opcodeField_wordOfBytes])
  · obtain ⟨f, hf, hd⟩ := decodeWord_decodesBy (w := wordOfBytes b0 b1 b2 b3) (by rwa [opcodeField_wordOfBytes])
    rw [opcodeField_wordOfBytes] at hf
    have hc := hd.checked (r := ⟨b0, b1, b2, b3⟩) (by simp)
    refine ⟨f, hf, fun hbad => hc.rejects (Bool.and_eq_false_iff.mpr hbad), fun hgood => ?_⟩
    obtain ⟨i, hi⟩ := hc.accepts (Bool.and_eq_true_iff.mpr hgood)
    exact ⟨i, hi, encodeBytes_of_decodeWord hi⟩

/-- Settles O1: the words are concrete. -/
theorem specWordsDecodeAsWritten : Obligations.SpecWordsDecodeAsWritten := by
  unfold Obligations.SpecWordsDecodeAsWritten
  decide

end Sys2Proof.Safety
end

section
/-! The two passes of the assembler and the binary they give (30_encoding.md R66, R67): when pass 1 succeeds and what
it gives each name, which errors pass 2 can report, and what Load and the decoder read in the output. -/

namespace Sys2Proof.Asm

variable {n : Name} {l : Line} {ls : List Line} {off : Nat} {table table' : List (Name × Nat)}

/-! ### Parts of a list of lines -/

/-- The names the lines declare, in source order. -/
def labelsOf (ls : List Line) : List Name := ls.filterMap fun l => l.label

/-- The instructions of the lines, in source order. -/
def stmtsOf (ls : List Line) : List Stmt := ls.filterMap fun l => l.stmt

/-- The number of lines that hold an instruction. -/
def instrCount (ls : List Line) : Nat := (ls.filter fun l => l.stmt.isSome).length

theorem labelsOf_cons_none (h : l.label = none) : labelsOf (l :: ls) = labelsOf ls := by simp [labelsOf, h]

theorem labelsOf_cons_some (h : l.label = some n) : labelsOf (l :: ls) = n :: labelsOf ls := by simp [labelsOf, h]

theorem mem_labelsOf : n ∈ labelsOf ls ↔ ∃ l ∈ ls, l.label = some n := by simp [labelsOf]

theorem instrCount_le_length (ls : List Line) : instrCount ls ≤ ls.length := List.length_filter_le ..

/-! ### Pass 1 -/

/-- A line without a declaration only moves the offset. -/
theorem labelTable_cons_none (h : l.label = none) :
    labelTable off table (l :: ls) = labelTable (off + 4 * instrCount [l]) table ls := by
  cases hs : l.stmt <;> simp [labelTable, instrCount, h, hs]

/-- A new name is entered with the offset of the next instruction. -/
theorem labelTable_cons_fresh (h : l.label = some n) (hn : table.lookup n = none) :
    labelTable off table (l :: ls) = labelTable (off + 4 * instrCount [l]) ((n, off) :: table) ls := by
  cases hs : l.stmt <;> simp [labelTable, instrCount, h, hn, hs]

theorem labelTable_cons_duplicate (h : l.label = some n) (hn : table.lookup n ≠ none) :
    labelTable off table (l :: ls) = .error .duplicateLabel := by
  simp [labelTable, h, Option.isSome_iff_ne_none, hn]

/-- Looking a name up in a table with one more entry. -/
theorem lookup_cons_eq_none {v : Nat} {m : Name} :
    ((m, v) :: table).lookup n = none ↔ n ≠ m ∧ table.lookup n = none := by
  rw [List.lookup_cons]
  by_cases h : n = m
  · simp [h]
  · rw [beq_false_of_ne h]
    exact (and_iff_right h).symm

/-- Pass 1 succeeds on lines whose names are new and declared once. -/
theorem labelTable_of_nodup (hnd : (labelsOf ls).Nodup) (hnew : ∀ n ∈ labelsOf ls, table.lookup n = none) :
    ∃ table', labelTable off table ls = .ok table' := by
  induction ls generalizing off table with
  | nil => exact ⟨table, rfl⟩
  | cons l ls ih =>
    cases hl : l.label with
    | none =>
      rw [labelsOf_cons_none hl] at hnd hnew
      rw [labelTable_cons_none hl]
      exact ih hnd hnew
    | some n =>
      rw [labelsOf_cons_some hl] at hnd hnew
      obtain ⟨hn, hnd⟩ := List.nodup_cons.mp hnd
      obtain ⟨hnewn, hnew⟩ := List.forall_mem_cons.mp hnew
      rw [labelTable_cons_fresh hl hnewn]
      exact ih hnd fun m hm => lookup_cons_eq_none.mpr ⟨ne_of_mem_of_not_mem hm hn, hnew m hm⟩

/-- From the empty table every name is new. -/
theorem labelTable_nil_of_nodup (hnd : (labelsOf ls).Nodup) : ∃ table, labelTable off [] ls = .ok table :=
  labelTable_of_nodup hnd fun _ _ => rfl

/-- On other lines it reports a duplicate, and no other error. -/
theorem labelTable_eq_duplicateLabel (h : ¬ ((labelsOf ls).Nodup ∧ ∀ n ∈ labelsOf ls, table.lookup n = none)) :
    labelTable off table ls = .error .duplicateLabel := by
  induction ls generalizing off table with
  | nil => exact absurd ⟨List.nodup_nil, nofun⟩ h
  | cons l ls ih =>
    cases hl : l.label with
    | none =>
      rw [labelsOf_cons_none hl] at h
      rw [labelTable_cons_none hl]
      exact ih h
    | some n =>
      by_cases hn : table.lookup n = none
      · rw [labelTable_cons_fresh hl hn]
        refine ih fun ⟨hnd, hnew⟩ => h ?_
        rw [labelsOf_cons_some hl]
        exact ⟨List.nodup_cons.mpr ⟨fun hmem => (lookup_cons_eq_none.mp (hnew n hmem)).1 rfl, hnd⟩,
          List.forall_mem_cons.mpr ⟨hn, fun m hm => (lookup_cons_eq_none.mp (hnew m hm)).2⟩⟩
      · exact labelTable_cons_duplicate hl hn

/-- One line of a successful pass 1. -/
theorem labelTable_cons_ok (h : labelTable off table (l :: ls) = .ok table') :
    (l.label = none ∧ labelTable (off + 4 * instrCount [l]) table ls = .ok table') ∨
    ∃ n, l.label = some n ∧ table.lookup n = none ∧
      labelTable (off + 4 * instrCount [l]) ((n, off) :: table) ls = .ok table' := by
  cases hl : l.label with
  | none => exact .inl ⟨rfl, labelTable_cons_none hl ▸ h⟩
  | some n =>
    by_cases hn : table.lookup n = none
    · exact .inr ⟨n, rfl, hn, labelTable_cons_fresh hl hn ▸ h⟩
    · rw [labelTable_cons_duplicate hl hn] at h
      cases h

/-- Pass 1 keeps the values it has found. -/
theorem lookup_of_labelTable {v : Nat} (h : labelTable off table ls = .ok table') (hv : table.lookup n = some v) :
    table'.lookup n = some v := by
  induction ls generalizing off table with
  | nil => cases h; exact hv
  | cons l ls ih =>
    rcases labelTable_cons_ok h with ⟨-, h⟩ | ⟨m, -, hm, h⟩
    · exact ih h hv
    · have hne : n ≠ m := by rintro rfl; simp [hm] at hv
      exact ih h (by rw [List.lookup_cons, beq_false_of_ne hne]; exact hv)

/-- It enters no name that the lines do not declare. -/
theorem lookup_eq_none_of_labelTable (h : labelTable off table ls = .ok table') (hn : n ∉ labelsOf ls)
    (hv : table.lookup n = none) : table'.lookup n = none := by
  induction ls generalizing off table with
  | nil => cases h; exact hv
  | cons l ls ih =>
    rcases labelTable_cons_ok h with ⟨hl, h⟩ | ⟨m, hl, -, h⟩
    · rw [labelsOf_cons_none hl] at hn
      exact ih h hn hv
    · rw [labelsOf_cons_some hl, List.mem_cons, not_or] at hn
      exact ih h hn.2 (lookup_cons_eq_none.mpr ⟨hn.1, hv⟩)

/-- The value of a name: the offset behind the instructions of the lines before its declaration. -/
theorem lookup_labelTable_append {pre post : List Line} (hl : l.label = some n)
    (h : labelTable off table (pre ++ l :: post) = .ok table') :
    table'.lookup n = some (off + 4 * instrCount pre) := by
  induction pre generalizing off table with
  | nil =>
    rcases labelTable_cons_ok h with ⟨hl', -⟩ | ⟨m, hm, -, h⟩
    · simp [hl] at hl'
    · cases hl.symm.trans hm
      exact lookup_of_labelTable h List.lookup_cons_self
  | cons x pre ih =>
    have hcount : instrCount (x :: pre) = instrCount [x] + instrCount pre := by
      rw [instrCount, ← List.singleton_append, List.filter_append, List.length_append]
      rfl
    rw [hcount, Nat.mul_add, ← Nat.add_assoc]
    rcases labelTable_cons_ok h with ⟨-, h⟩ | ⟨m, -, -, h⟩ <;> exact ih h

/-- No value passes the end of the stream. -/
theorem lookup_labelTable_le {v : Nat} (h : labelTable 0 [] ls = .ok table) (hv : table.lookup n = some v) :
    v ≤ 4 * ls.length := by
  by_cases hn : n ∈ labelsOf ls
  · obtain ⟨l, hmem, hl⟩ := mem_labelsOf.mp hn
    obtain ⟨pre, post, rfl⟩ := List.append_of_mem hmem
    rw [lookup_labelTable_append hl h] at hv
    cases hv
    have := instrCount_le_length pre
    rw [List.length_append]
    omega
  · simp [lookup_eq_none_of_labelTable h hn rfl] at hv

/-! ### Pass 2 -/

/-- Pass 2 resolves the instructions of the lines one by one. -/
theorem resolveLines_eq_mapM (table : List (Name × Nat)) (ls : List Line) :
    resolveLines table ls = (stmtsOf ls).mapM (resolveStmt table) := by
  induction ls with
  | nil => rfl
  | cons l ls ih => cases hs : l.stmt <;> simp [resolveLines, stmtsOf, hs, ih]

/-- A reference to a name the table lacks. -/
theorem resolveStmt_of_lookup_none (k : JumpKind) (h : table.lookup n = none) :
    resolveStmt table (.toLabel k n) = .error .unresolvedSymbol := by
  simp [resolveStmt, h]

/-- Pass 2 fails on a statement for a name that is missing or for a value no address field holds. -/
theorem resolveStmt_error {st : Stmt} {e : AsmError} (h : resolveStmt table st = .error e) :
    e = .unresolvedSymbol ∨ (e = .parseError ∧ ∃ n v, table.lookup n = some v ∧ 16777216 ≤ v) := by
  unfold resolveStmt at h
  split at h
  · cases h
  · split at h
    · cases h; exact .inl rfl
    · rename_i v hv
      split_ifs at h with hlt
      cases h
      exact .inr ⟨rfl, _, v, hv, by omega⟩

/-- An error of a list is that of one of its members. -/
theorem mapM_error {α β ε : Type} {f : α → Except ε β} {xs : List α} {e : ε} (h : xs.mapM f = .error e) :
    ∃ x ∈ xs, f x = .error e := by
  induction xs with
  | nil => cases h
  | cons x xs ih =>
    rw [List.mapM_cons] at h
    cases hx : f x with
    | error e' =>
      rw [hx] at h
      cases h
      exact ⟨x, List.mem_cons_self, hx⟩
    | ok b =>
      cases hxs : xs.mapM f with
      | error e' =>
        rw [hx, hxs] at h
        cases h
        obtain ⟨y, hy, hfy⟩ := ih hxs
        exact ⟨y, List.mem_cons_of_mem _ hy, hfy⟩
      | ok bs => rw [hx, hxs] at h; cases h

/-- A list whose members have an error among them has an error. -/
theorem mapM_of_error {α β ε : Type} {f : α → Except ε β} {xs : List α} {x : α} {e : ε} (hx : x ∈ xs)
    (h : f x = .error e) : ∃ e', xs.mapM f = .error e' := by
  obtain ⟨pre, post, rfl⟩ := List.append_of_mem hx
  rw [List.mapM_append, List.mapM_cons, h]
  cases hpre : pre.mapM f with
  | error e' => exact ⟨e', rfl⟩
  | ok bs => exact ⟨e, rfl⟩

/-- Pass 2 never reports a duplicate. -/
theorem resolveLines_ne_duplicateLabel : resolveLines table ls ≠ .error .duplicateLabel := by
  rw [resolveLines_eq_mapM]
  intro h
  obtain ⟨st, -, hst⟩ := mapM_error h
  simpa using resolveStmt_error hst

/-- A reference to a name the table lacks stops pass 2. -/
theorem resolveLines_of_lookup_none {k : JumpKind} (hmem : l ∈ ls) (hl : l.stmt = some (.toLabel k n))
    (hn : table.lookup n = none) : ∃ e, resolveLines table ls = .error e := by
  rw [resolveLines_eq_mapM]
  exact mapM_of_error (List.mem_filterMap.mpr ⟨l, hmem, hl⟩) (resolveStmt_of_lookup_none k hn)

/-- Where every value fits an address field, pass 2 can only miss a name. -/
theorem resolveLines_error {e : AsmError} (hfit : ∀ n v, table.lookup n = some v → v < 16777216)
    (h : resolveLines table ls = .error e) : e = .unresolvedSymbol := by
  rw [resolveLines_eq_mapM] at h
  obtain ⟨st, -, hst⟩ := mapM_error h
  rcases resolveStmt_error hst with rfl | ⟨-, n, v, hv, hle⟩
  · rfl
  · exact absurd (hfit n v hv) (by omega)

/-! ### The two passes together -/

theorem assembleLines_of_labelTable_error {e : AsmError} (h : labelTable 0 [] ls = .error e) :
    assembleLines ls = .error e := by
  rw [assembleLines, h]
  rfl

/-- After pass 1 the outcome is that of pass 2. -/
theorem assembleLines_of_labelTable_ok (h : labelTable 0 [] ls = .ok table) :
    assembleLines ls = (resolveLines table ls).map binaryOf := by
  rw [assembleLines, h]
  cases hr : resolveLines table ls <;> simp [bind, Except.bind, Except.map, pure, Except.pure, hr]

/-- After a successful pass 1 no duplicate is reported. -/
theorem assembleLines_ne_duplicateLabel (h : labelTable 0 [] ls = .ok table) :
    assembleLines ls ≠ .error .duplicateLabel := by
  rw [assembleLines_of_labelTable_ok h]
  intro hdup
  cases hr : resolveLines table ls with
  | error e =>
    rw [hr] at hdup
    cases hdup
    exact resolveLines_ne_duplicateLabel hr
  | ok is => rw [hr] at hdup; cases hdup

/-- Bytes come out only where both passes succeed. -/
theorem assembleLines_ok {bin : List Byte} (h : assembleLines ls = .ok bin) :
    ∃ table is, labelTable 0 [] ls = .ok table ∧ resolveLines table ls = .ok is ∧ bin = binaryOf is := by
  cases ht : labelTable 0 [] ls with
  | error e => rw [assembleLines_of_labelTable_error ht] at h; cases h
  | ok table =>
    rw [assembleLines_of_labelTable_ok ht] at h
    cases hr : resolveLines table ls with
    | error e => rw [hr] at h; cases h
    | ok is => rw [hr] at h; cases h; exact ⟨table, is, rfl, hr, rfl⟩

/-! ### The binary (70_reset_and_hazards.md R129, R131) -/

theorem length_flatMap_encodeBytes (is : List Instr) : (is.flatMap encodeBytes).length = 4 * is.length := by
  simp [List.length_flatMap, encodeBytes, Nat.mul_comm]

theorem length_binaryOf (is : List Instr) : (binaryOf is).length = 5 + 4 * is.length := by
  rw [binaryOf, List.length_append, length_flatMap_encodeBytes]
  rfl

/-- The stream behind the header. -/
theorem drop_binaryOf (is : List Instr) (k : Nat) : (binaryOf is).drop (5 + k) = (is.flatMap encodeBytes).drop k := by
  rw [← List.drop_drop]
  rfl

/-- Four bytes on, the stream is that of the next instruction. -/
theorem drop_flatMap_encodeBytes (is : List Instr) (k : Nat) :
    (is.flatMap encodeBytes).drop (4 * k) = (is.drop k).flatMap encodeBytes := by
  induction k generalizing is with
  | zero => rfl
  | succ k ih =>
    cases is with
    | nil => simp
    | cons i is => rw [List.drop_succ_cons, ← ih, Nat.mul_succ, Nat.add_comm, ← List.drop_drop]; rfl

/-- Load accepts an assembled binary whose stream is not too long. -/
theorem checkBinary_binaryOf {is : List Instr} (h : 4 * is.length ≤ Config.maxProgramLen) :
    Machine.checkBinary (binaryOf is) = none := by
  have htake : (binaryOf is).take 4 = Config.magic := rfl
  have hversion : (binaryOf is)[4]? = some Config.isaVersion := rfl
  simp only [Machine.checkBinary, htake, hversion, length_binaryOf]
  simp [h]

/-- Word k of an assembled binary is instruction k. -/
theorem decode_drop_binaryOf {is : List Instr} {k : Nat} {i : Instr} (h : is[k]? = some i) :
    decode ((binaryOf is).drop (5 + 4 * k)) = .instr i := by
  rw [drop_binaryOf, drop_flatMap_encodeBytes, List.drop_eq_getElem?_toList_append, h]
  exact decode_encodeBytes_append ..

end Sys2Proof.Asm
end

section
/-! The statements of 30_encoding.md about the assembler (O55 to O59). -/

namespace Sys2Proof.Safety

open Sys2Proof.Machine

/-- Settles O55: the lines before the declaration move the offset, and the lines after it keep the value. -/
theorem labelValueCountsInstructionsBefore : Obligations.LabelValueCountsInstructionsBefore := by
  intro pre post l n table hl h
  rw [Asm.lookup_labelTable_append hl h, Nat.zero_add]
  rfl

/-- Settles O56: pass 1 reports every duplicate, pass 2 none. -/
theorem duplicateLabelsAreRejected : Obligations.DuplicateLabelsAreRejected := by
  refine fun ls => ⟨fun hdup => ?_, fun hnd => ?_⟩
  · exact Asm.assembleLines_of_labelTable_error (Asm.labelTable_eq_duplicateLabel fun h => hdup h.1)
  · obtain ⟨table, ht⟩ := Asm.labelTable_nil_of_nodup hnd
    exact Asm.assembleLines_ne_duplicateLabel ht

/-- Settles O57: a name no line declares is missing in the table of pass 1. -/
theorem undeclaredLabelsAreRejected : Obligations.UndeclaredLabelsAreRejected := by
  intro ls l k n hmem hl hdecl
  have hn : n ∉ Asm.labelsOf ls := fun h => by
    obtain ⟨m, hm, hmn⟩ := Asm.mem_labelsOf.mp h
    exact hdecl m hm hmn
  have hfails {table} (ht : Asm.labelTable 0 [] ls = .ok table) : ∃ e, Asm.resolveLines table ls = .error e :=
    Asm.resolveLines_of_lookup_none hmem hl (Asm.lookup_eq_none_of_labelTable ht hn rfl)
  refine ⟨fun bin hbin => ?_, fun hnd hlen => ?_⟩
  · obtain ⟨table, is, ht, hr, -⟩ := Asm.assembleLines_ok hbin
    obtain ⟨e, he⟩ := hfails ht
    cases hr.symm.trans he
  · obtain ⟨table, ht⟩ := Asm.labelTable_nil_of_nodup hnd
    obtain ⟨e, he⟩ := hfails ht
    have hfit n v (hv : table.lookup n = some v) : v < 16777216 := (Asm.lookup_labelTable_le ht hv).trans_lt hlen
    cases Asm.resolveLines_error hfit he
    rw [Asm.assembleLines_of_labelTable_ok ht, he]
    rfl

/-- Settles O58: the binary is the header and the encodings of what pass 2 resolves. -/
theorem assembledBinaryLoadsAndDecodes : Obligations.AssembledBinaryLoadsAndDecodes := by
  intro ls bin h
  obtain ⟨table, is, ht, hr, rfl⟩ := Asm.assembleLines_ok h
  exact ⟨table, is, ht, (Asm.resolveLines_eq_mapM table ls).symm.trans hr, Asm.length_binaryOf is,
    Asm.checkBinary_binaryOf, fun _ _ => Asm.decode_drop_binaryOf⟩

/-- Settles O59: the source is concrete. -/
theorem programP1AssemblesToItsBytes : Obligations.ProgramP1AssemblesToItsBytes := by
  unfold Obligations.ProgramP1AssemblesToItsBytes
  decide

end Sys2Proof.Safety
end

section
/-! The step and the run loop of 40_cycle.md: every instruction, and every step from a pc inside the stream, answers a
next state; a step that halts sets the status alone; a run that ends of its own accord does not depend on its budget.
The statements of 40_cycle.md follow from these. -/

namespace Sys2Proof.Machine

variable {s t : State} {i : Instr}

/-! ### Every instruction and every step answers -/

/-- A check answers where both its branches do. -/
theorem exists_next_ite {c : Prop} {_ : Decidable c} {x y : Result} (hx : ∃ t, x = .next t) (hy : ∃ t, y = .next t) :
    ∃ t, (if c then x else y) = .next t := by
  split
  · exact hx
  · exact hy

/-- Every instruction answers a next state, whatever the state: it makes no check, one or two, and a check that fails
is a halt (40_cycle.md R77, 60_exceptions.md R115). -/
theorem exists_exec_eq_next (i : Instr) (s : State) : ∃ t, exec i s = .next t := by
  cases i with
  | halt | nop | load | add | sub | mul | inc | dec | eq | neq | gt | lt | gte | lte => exact ⟨_, rfl⟩
  | div | jmp | jmpf | jmpb | aloc | ldw | stw | ldb | stb => exact exists_next_ite ⟨_, rfl⟩ ⟨_, rfl⟩
  | jeq => exact exists_next_ite (exists_next_ite ⟨_, rfl⟩ ⟨_, rfl⟩) ⟨_, rfl⟩
  | call => exact exists_next_ite ⟨_, rfl⟩ (exists_next_ite ⟨_, rfl⟩ ⟨_, rfl⟩)
  | ret =>
    rw [exec_ret, execRet]
    split <;> exact ⟨_, rfl⟩

/-- A step runs the instruction it decodes (40_cycle.md R73). -/
theorem step_eq_exec (h : s.status = .running) (hp : s.pc.toNat < s.prog.extent) (hi : decode s.fetch = .instr i) :
    step s = exec i s := by
  rw [step_inside h hp, hi]

/-- A step halts with the kind of a decode error (40_cycle.md R72). -/
theorem step_of_decode_error {e : DecodeError} (h : s.status = .running) (hp : s.pc.toNat < s.prog.extent)
    (he : decode s.fetch = .error e) : step s = .next (s.halt (haltOfDecodeError e)) := by
  rw [step_inside h hp, he]
  rfl

/-- A step from a pc inside the stream or at its end answers a next state. -/
theorem exists_step_eq_next (hp : s.pc.toNat ≤ s.prog.extent) : ∃ t, step s = .next t := by
  cases hs : s.status with
  | halted k => exact ⟨s, step_halted hs⟩
  | running =>
    rcases hp.eq_or_lt with hend | hin
    · exact ⟨_, step_end hs hend⟩
    · cases hd : decode s.fetch with
      | error e => exact ⟨_, step_of_decode_error hs hin hd⟩
      | instr i =>
        rw [step_eq_exec hs hin hd]
        exact exists_exec_eq_next i s

/-- A running machine that a step halts has its status set and nothing else: an instruction that completes leaves it
running. -/
theorem eq_halt_of_step {k : HaltKind} (hs : s.status = .running) (h : step s = .next t)
    (ht : t.status = .halted k) : t = s.halt k := by
  rcases step_completed_or_status h with ⟨i, -, -, hc⟩ | rfl | ⟨k', rfl⟩
  · simp [hc.status_eq, hs] at ht
  · simp [hs] at ht
  · cases ht
    rfl

/-! ### The run loop (40_cycle.md R79) -/

/-- With budget left a running machine takes one step and goes on. -/
theorem runLimited_step {u : State} (n : Nat) (hs : s.status = .running) (h : step s = .next u) :
    runLimited (n + 1) s = runLimited n u := by
  simp [runLimited, hs, h]

/-- A run without a budget returns a halted machine as it is. -/
theorem runUnlimited_halted {k : HaltKind} (fuel : Nat) (h : s.status = .halted k) :
    runUnlimited fuel s = some (.next s) := by
  cases fuel <;> simp [runUnlimited, h]

/-- Without a budget a running machine takes one step and goes on. -/
theorem runUnlimited_step {u : State} (fuel : Nat) (hs : s.status = .running) (h : step s = .next u) :
    runUnlimited (fuel + 1) s = runUnlimited fuel u := by
  simp [runUnlimited, hs, h]

/-- A run that ends otherwise than by its budget ends so under every larger budget and without one. -/
theorem runLimited_mono {m n : Nat} {k : HaltKind} (hmn : m ≤ n) (h : runLimited m s = .next t)
    (ht : t.status = .halted k) (hk : k ≠ .instructionLimitExceeded) :
    runLimited n s = .next t ∧ runUnlimited n s = some (.next t) := by
  induction m generalizing s n with
  | zero =>
    cases hs : s.status with
    | halted k' =>
      rw [runLimited_halted 0 hs] at h
      cases h
      exact ⟨runLimited_halted n hs, runUnlimited_halted n hs⟩
    | running =>
      rw [runLimited_zero hs] at h
      cases h
      cases ht
      exact absurd rfl hk
  | succ m ih =>
    cases hs : s.status with
    | halted k' =>
      rw [runLimited_halted (m + 1) hs] at h
      cases h
      exact ⟨runLimited_halted n hs, runUnlimited_halted n hs⟩
    | running =>
      obtain ⟨n, rfl⟩ := Nat.exists_eq_add_of_le' (Nat.one_le_of_lt hmn)
      obtain ⟨u, hu, hr⟩ := runLimited_succ hs h
      rw [runLimited_step n hs hu, runUnlimited_step n hs hu]
      exact ih (Nat.le_of_succ_le_succ hmn) hr

/-! ### Load and read_heap -/

/-- A binary that fails a check is not loaded (70_reset_and_hazards.md R131). -/
theorem State.load_of_checkBinary_some {bin : List Byte} {e : LoadError} (s : State) (h : checkBinary bin = some e) :
    s.load bin = (s, some e) := by
  simp [State.load, h]

/-- A binary that passes the checks is loaded (70_reset_and_hazards.md R130). -/
theorem State.load_of_checkBinary_none {bin : List Byte} (s : State) (h : checkBinary bin = none) :
    s.load bin = (s.loadStream (bin.drop 5), none) := by
  simp [State.load, h]

/-- The bytes read from a range inside the extent are those the space holds there. -/
theorem Memory.getElem?_bytes_eq_read? (m : Memory) {a n k : Nat} (ha : a + n ≤ m.extent) (hk : k < n) :
    (m.bytes a n)[k]? = m.read? (a + k) := by
  have hin : a + k < m.extent := by omega
  rw [Memory.getElem?_bytes, if_pos hk, Memory.read?, if_pos hin]

end Sys2Proof.Machine

namespace Sys2Proof.Safety

open Sys2Proof.Machine

variable {s : State}

/-- In the invariant pc is never past the end of the stream, the one place where a step has no next state. -/
theorem MachineInv.exists_step (h : MachineInv s) : ∃ t, Machine.step s = .next t :=
  exists_step_eq_next h.pc_le_len

/-- Each turn of the loop answers, and with no budget left the machine is halted. -/
theorem MachineInv.exists_runLimited_halted (h : MachineInv s) (n : Nat) :
    ∃ t k, Machine.runLimited n s = .next t ∧ t.status = .halted k := by
  induction n generalizing s with
  | zero =>
    cases hs : s.status with
    | halted k => exact ⟨s, k, runLimited_halted 0 hs, hs⟩
    | running => exact ⟨_, _, runLimited_zero hs, rfl⟩
  | succ n ih =>
    cases hs : s.status with
    | halted k => exact ⟨s, k, runLimited_halted (n + 1) hs, hs⟩
    | running =>
      obtain ⟨u, hu⟩ := h.exists_step
      rw [runLimited_step n hs hu]
      exact ih (h.step hu)

end Sys2Proof.Safety
end

section
/-! The statements of 40_cycle.md: the step (O5, O8, O9, O14), the run loop (O50, O51, O53) and read_heap (O54). -/

namespace Sys2Proof.Safety

open Sys2Proof.Machine

/-- Settles O9. -/
theorem haltingStepWritesOnlyStatus : Obligations.HaltingStepWritesOnlyStatus :=
  fun _ _ _ => eq_halt_of_step

/-- Settles O14: of the invariant it needs the bound on pc alone. -/
theorem stepAlwaysAnswersNext : Obligations.StepAlwaysAnswersNext :=
  fun _ h => h.exists_step

/-- Settles O51, by induction on the budget. -/
theorem budgetedRunAlwaysHalts : Obligations.BudgetedRunAlwaysHalts := by
  intro m s h
  obtain ⟨t, k, hr, ht⟩ := h.exists_runLimited_halted m.toNat
  exact ⟨t, k, hr, ht, h.runLimited hr⟩

/-- Settles O53, by induction on the smaller budget. -/
theorem largerBudgetSameEnd : Obligations.LargerBudgetSameEnd :=
  fun _ _ _ _ _ => runLimited_mono

/-- Settles O54. -/
theorem readHeapReturnsTheBytes : Obligations.ReadHeapReturnsTheBytes := by
  refine fun s a n => ⟨fun hin => ⟨s.heap.bytes a.toNat n, if_pos hin, Memory.length_bytes .., fun k hk => ?_⟩,
    fun hout => if_neg hout⟩
  exact s.heap.getElem?_bytes_eq_read? (by omega) hk

/-- Settles O5. -/
theorem stepRunsDecodedInstruction : Obligations.StepRunsDecodedInstruction :=
  fun _ _ => step_eq_exec

/-- Settles O8. -/
theorem haltIsTerminal : Obligations.HaltIsTerminal := by
  refine fun s k hs => ⟨step_halted hs, fun m => runLimited_halted m.toNat hs, fun bin e he => ?_, fun bin hb => ?_,
    State.hostReset_status s⟩
  · rw [s.load_of_checkBinary_some he]
  · rw [s.load_of_checkBinary_none hb, State.loadStream_status]

/-- Settles O50. -/
theorem runLoopAsStated : Obligations.RunLoopAsStated := by
  refine ⟨fun m _ _ => runLimited_halted m.toNat, fun _ => runLimited_zero, fun m s t hs hm hst => ?_,
    fun fuel _ _ => runUnlimited_halted fuel, fun fuel _ _ => runUnlimited_step fuel⟩
  have hcount : m.toNat = (m - 1#64).toNat + 1 := by bv_omega
  rw [runBudget, hcount, runLimited_step _ hs hst, runBudget]

end Sys2Proof.Safety
end

section
/-! What an instruction that writes one register and goes to the next word leaves: its frame, and for the results of
41_arithmetic.md the value written. -/

namespace Sys2Proof.Machine

variable {s : State}

/-! ### Operand values -/

theorem toInt_eq_zero_iff (v : Word) : v.toInt = 0 ↔ v = 0#32 := by
  rw [← BitVec.toInt_zero, BitVec.toInt_inj]

/-- The exact signed product, truncated, is the product of the vectors, whichever way they are read (41_arithmetic.md
R85). -/
theorem trunc32_toInt_mul_toInt (v w : Word) : trunc32 (v.toInt * w.toInt) = v * w := by
  rw [trunc32, BitVec.ofInt_mul, BitVec.ofInt_toInt, BitVec.ofInt_toInt]

/-- The low 32 bits of a product are the same for the signed and the unsigned operands. -/
theorem toInt_mul_toInt_emod (v w : Word) :
    v.toInt * w.toInt % 4294967296 = (v.toNat * w.toNat % 4294967296 : Nat) := by
  rw [← toNat_trunc32, trunc32_toInt_mul_toInt, BitVec.toNat_mul]

/-! ### The two ways of DIV (41_arithmetic.md R86) -/

theorem exec_div_of_ne_zero {b : Reg} (h : s.readReg b ≠ 0#32) (a d : Reg) :
    exec (.div a b d) s = s.writeResult d (Int.tdiv (s.readReg a).toInt (s.readReg b).toInt) := by
  rw [exec_div, execDiv, if_neg (mt (toInt_eq_zero_iff _).mp h), divTowardZero_eq_tdiv]

theorem exec_div_of_eq_zero {b : Reg} (h : s.readReg b = 0#32) (a d : Reg) :
    exec (.div a b d) s = .next (s.halt .divisionByZero) := by
  rw [exec_div, execDiv, if_pos ((toInt_eq_zero_iff _).mpr h), State.raise_eq]

end Sys2Proof.Machine

namespace Sys2Proof.Safety

open Sys2Proof.Machine

/-! ### The frame of an instruction that writes one register -/

@[refl] theorem SameBytes.refl (m : Memory) : SameBytes m m := ⟨rfl, fun _ => rfl⟩

/-- A register write followed by pc <- next has the frame of its register, whatever the value. -/
theorem onlyRegister_writeReg_advance (d : Reg) (v : Word) (s : State) : OnlyRegister d s (s.writeReg d v).advance := by
  refine ⟨fun r hr => ?_, rfl, rfl, .refl _, .refl _, rfl⟩
  rw [State.readReg_advance, State.readReg_writeReg_ne s v hr]

/-- A result is written modulo 2^32, with pc to the next word and nothing else changed. -/
theorem writeResult_spec (s : State) (d : Reg) (i : Int) :
    ∃ t, s.writeResult d i = .next t ∧ ((t.readReg d).toNat : Int) = i % 4294967296 ∧ t.pc = s.pc + 4 ∧
      OnlyRegister d s t := by
  refine ⟨_, s.writeResult_eq d i, ?_, rfl, onlyRegister_writeReg_advance d _ s⟩
  rw [State.readReg_advance, State.readReg_writeReg_self, toNat_trunc32]

end Sys2Proof.Safety
end

section
/-! The statements of 41_arithmetic.md: ADD, SUB, MUL, DIV, INC and DEC (O21 to O25). Each word is the one the encoder
writes, and each meaning is one `writeResult`; DIV alone makes a check first. -/

namespace Sys2Proof.Safety

open Sys2Proof.Machine

/-- Settles O24, by cases on the divisor. -/
theorem divWritesTruncatedQuotientOrHalts : Obligations.DivWritesTruncatedQuotientOrHalts := by
  refine fun a b d s => ⟨decodeWord_encode (.div a b d), fun hne => ?_, fun hz => exec_div_of_eq_zero hz a d⟩
  rw [exec_div_of_ne_zero hne]
  exact writeResult_spec s d _

/-- Settles O21. -/
theorem addWritesWrappedSum : Obligations.AddWritesWrappedSum :=
  fun a b d s => ⟨decodeWord_encode (.add a b d), writeResult_spec s d _⟩

/-- Settles O22. -/
theorem subWritesWrappedDifference : Obligations.SubWritesWrappedDifference :=
  fun a b d s => ⟨decodeWord_encode (.sub a b d), writeResult_spec s d _⟩

/-- Settles O23: the signed product is the one written, and the unsigned one agrees with it modulo 2^32. -/
theorem mulWritesLowProduct : Obligations.MulWritesLowProduct := by
  intro a b d s
  obtain ⟨t, ht, hsigned, hpc, hframe⟩ := writeResult_spec s d ((s.readReg a).toInt * (s.readReg b).toInt)
  have hunsigned := Int.natCast_inj.mp (hsigned.trans (toInt_mul_toInt_emod _ _))
  exact ⟨decodeWord_encode (.mul a b d), t, ht, hsigned, hunsigned, hpc, hframe⟩

/-- Settles O25. -/
theorem incAndDecStepByOne : Obligations.IncAndDecStepByOne :=
  fun r s => ⟨⟨decodeWord_encode (.inc r), writeResult_spec s r _⟩,
    ⟨decodeWord_encode (.dec r), writeResult_spec s r _⟩⟩

end Sys2Proof.Safety
end

section
/-! What a comparison leaves: the flag set to the relation its test decides (42_comparison.md R89 to R94), pc at the next
word, and its frame. -/

namespace Sys2Proof.Machine

variable {x y : Word}

/-! ### The relation each test decides -/

@[simp] theorem cmpEq_iff : cmpEq x y = true ↔ x = y := decide_eq_true_iff

@[simp] theorem cmpNeq_iff : cmpNeq x y = true ↔ x ≠ y := decide_eq_true_iff

@[simp] theorem cmpGt_iff : cmpGt x y = true ↔ x.toInt > y.toInt := decide_eq_true_iff

@[simp] theorem cmpLt_iff : cmpLt x y = true ↔ x.toInt < y.toInt := decide_eq_true_iff

@[simp] theorem cmpGte_iff : cmpGte x y = true ↔ x.toInt ≥ y.toInt := decide_eq_true_iff

@[simp] theorem cmpLte_iff : cmpLte x y = true ↔ x.toInt ≤ y.toInt := decide_eq_true_iff

end Sys2Proof.Machine

namespace Sys2Proof.Safety

open Sys2Proof.Machine

/-! ### The frame of a comparison -/

/-- A new flag followed by pc <- next has the frame of a comparison, whatever the flag. -/
theorem onlyFlag_setFlag_advance (b : Bool) (s : State) : OnlyFlag s (s.setFlag b).advance := by
  refine ⟨fun r => ?_, rfl, .refl _, .refl _, rfl⟩
  rw [State.readReg_advance, State.readReg_setFlag]

/-- A comparison sets the flag to the relation p its test decides of the two operands, with pc to the next word and
nothing else changed. -/
theorem compare_spec {s : State} {a b : Reg} {p : Prop} (cmp : Word → Word → Bool)
    (hcmp : cmp (s.readReg a) (s.readReg b) = true ↔ p) :
    ∃ t, s.compare cmp a b = .next t ∧ (t.flag = true ↔ p) ∧ t.pc = s.pc + 4 ∧ OnlyFlag s t :=
  ⟨_, s.compare_eq cmp a b, hcmp, rfl, onlyFlag_setFlag_advance _ s⟩

end Sys2Proof.Safety
end

section
/-! The statements of 42_comparison.md: EQ and NEQ, GT and LT, GTE and LTE (O26 to O28). Each word is the one the encoder
writes, and each meaning is one `State.compare` with the test of its relation. -/

namespace Sys2Proof.Safety

open Sys2Proof.Machine

/-- Settles O26. -/
theorem eqAndNeqSetTheFlag : Obligations.EqAndNeqSetTheFlag :=
  fun a b _ => ⟨⟨decodeWord_encode (.eq a b), compare_spec cmpEq cmpEq_iff⟩,
    ⟨decodeWord_encode (.neq a b), compare_spec cmpNeq cmpNeq_iff⟩⟩

/-- Settles O27. -/
theorem gtAndLtSetTheFlag : Obligations.GtAndLtSetTheFlag :=
  fun a b _ => ⟨⟨decodeWord_encode (.gt a b), compare_spec cmpGt cmpGt_iff⟩,
    ⟨decodeWord_encode (.lt a b), compare_spec cmpLt cmpLt_iff⟩⟩

/-- Settles O28. -/
theorem gteAndLteSetTheFlag : Obligations.GteAndLteSetTheFlag :=
  fun a b _ => ⟨⟨decodeWord_encode (.gte a b), compare_spec cmpGte cmpGte_iff⟩,
    ⟨decodeWord_encode (.lte a b), compare_spec cmpLte cmpLte_iff⟩⟩

end Sys2Proof.Safety
end

section
/-! What a control transfer leaves: pc at the target, and what else stays. The target check of 40_cycle.md R75 is stated
on the 24-bit address, and each way an instruction of 43_control.md can go is an equation. -/

namespace Sys2Proof.Machine

variable {s : State} {target : BitVec 24}

/-! ### The target check on an address -/

/-- An address is never below 0, so its check is the bound and the alignment. -/
theorem State.validTarget_zext24_iff :
    s.validTarget (zext24 target) ↔ target.toNat ≤ s.prog.extent ∧ target.toNat % 4 = 0 := by
  simp only [zext24]
  omega

/-- An address keeps its value as a pc. -/
theorem toNat_ofInt_zext24 (target : BitVec 24) : (BitVec.ofInt 32 (zext24 target)).toNat = target.toNat := by
  rw [zext24, BitVec.ofInt_natCast, BitVec.toNat_ofNat]
  exact Nat.mod_eq_of_lt (target.isLt.trans (by decide))

/-- A valid target is below 2^32, since len is at most 2^24 (10_state.md R24). -/
theorem State.lt_of_validTarget {T : Int} (hlen : s.prog.extent ≤ Config.maxProgramLen) (h : s.validTarget T) :
    T < 4294967296 := by
  have hmax : s.prog.extent ≤ 16777216 := hlen
  omega

/-! ### The ways of JEQ, CALL and RET (43_control.md R98 to R100) -/

theorem exec_jeq_of_flag_false (h : s.flag = false) : exec (.jeq target) s = .next s.advance := by
  rw [exec_jeq, execJeq, if_neg (Bool.eq_false_iff.mp h)]

theorem exec_jeq_of_flag_true (h : s.flag = true) : exec (.jeq target) s = s.jump (zext24 target) := by
  rw [exec_jeq, execJeq, if_pos h]

theorem exec_call_of_room (hv : s.validTarget (zext24 target)) (hd : s.depth < Config.callStackMax) :
    exec (.call target) s = .next ((s.push (s.pc + 4)).setPc (BitVec.ofInt 32 (zext24 target))) := by
  rw [exec_call, execCall, if_neg (not_not.mpr hv), if_neg hd.not_ge, State.nextPc_eq]

theorem exec_call_of_invalid (hv : ¬ s.validTarget (zext24 target)) :
    exec (.call target) s = .next (s.halt .jumpOutOfBounds) := by
  rw [exec_call, execCall, if_pos hv, State.raise_eq]

theorem exec_call_of_full (hv : s.validTarget (zext24 target)) (hd : Config.callStackMax ≤ s.depth) :
    exec (.call target) s = .next (s.halt .callStackOverflow) := by
  rw [exec_call, execCall, if_neg (not_not.mpr hv), if_pos hd, State.raise_eq]

theorem exec_ret_of_cons {top : Offset} {rest : List Offset} (h : s.callStack = top :: rest) :
    exec .ret s = .next (s.dropTop.setPc top) := by
  simp only [exec_ret, execRet, h]

theorem exec_ret_of_nil (h : s.callStack = []) : exec .ret s = .next (s.halt .callStackUnderflow) := by
  simp only [exec_ret, execRet, h, State.raise_eq]

/-- A CALL that leaves the machine running has pushed the address of the next word. -/
theorem callStack_of_exec_call {t : State} (h : exec (.call target) s = .next t) (ht : t.status = .running) :
    t.callStack = (s.pc + 4) :: s.callStack := by
  by_cases hv : s.validTarget (zext24 target)
  · rcases lt_or_ge s.depth Config.callStackMax with hroom | hfull
    · rw [exec_call_of_room hv hroom] at h
      cases h
      rfl
    · rw [exec_call_of_full hv hfull] at h
      cases h
      cases ht
  · rw [exec_call_of_invalid hv] at h
    cases h
    cases ht

end Sys2Proof.Machine

namespace Sys2Proof.Safety

open Sys2Proof.Machine

variable {s : State}

/-! ### The frame of a control transfer -/

/-- A new pc has the frame of a jump, whatever the pc. -/
theorem onlyPc_setPc (s : State) (p : Offset) : OnlyPc s (s.setPc p) :=
  ⟨⟨fun r => s.readReg_setPc r p, rfl, .refl _, .refl _, rfl⟩, rfl⟩

/-- A pushed entry and a new pc have the frame of CALL. -/
theorem onlyPcAndStack_push_setPc (s : State) (v p : Offset) : OnlyPcAndStack s ((s.push v).setPc p) :=
  ⟨fun r => by rw [State.readReg_setPc, State.readReg_push], rfl, .refl _, .refl _, rfl⟩

/-- A popped entry and a new pc have the frame of RET. -/
theorem onlyPcAndStack_dropTop_setPc (s : State) (p : Offset) : OnlyPcAndStack s (s.dropTop.setPc p) :=
  ⟨fun r => by rw [State.readReg_setPc, State.readReg_dropTop], rfl, .refl _, .refl _, rfl⟩

/-! ### Jumps to a valid target -/

/-- A jump to a valid target goes there and changes nothing else. -/
theorem jump_valid_spec {T : Int} (hlen : s.prog.extent ≤ Config.maxProgramLen) (hv : s.validTarget T) :
    ∃ t, s.jump T = .next t ∧ (t.pc.toNat : Int) = T ∧ OnlyPc s t :=
  ⟨_, State.jump_valid hv, toNat_ofInt_target hv.1 (State.lt_of_validTarget hlen hv), onlyPc_setPc s _⟩

/-- A jump to a valid address goes there, whatever len, and changes nothing else. -/
theorem jump_zext24_valid_spec {target : BitVec 24}
    (hv : target.toNat ≤ s.prog.extent ∧ target.toNat % 4 = 0) :
    ∃ t, s.jump (zext24 target) = .next t ∧ t.pc.toNat = target.toNat ∧ OnlyPc s t :=
  ⟨_, State.jump_valid (State.validTarget_zext24_iff.mpr hv), toNat_ofInt_zext24 target, onlyPc_setPc s _⟩

/-- RET goes to the top entry and takes it off the stack. -/
theorem ret_spec {top : Offset} {rest : List Offset} (h : s.callStack = top :: rest) :
    ∃ t, exec .ret s = .next t ∧ t.pc = top ∧ t.callStack = rest ∧ OnlyPcAndStack s t := by
  refine ⟨_, exec_ret_of_cons h, rfl, ?_, onlyPcAndStack_dropTop_setPc s top⟩
  rw [State.setPc_callStack, State.dropTop_callStack, h, List.tail_cons]

end Sys2Proof.Safety
end

section
/-! The statements of 43_control.md: JMP, JMPF and JMPB, JEQ, CALL, RET, and RET after CALL (O29 to O34). Each word is
the one the encoder writes, and each statement goes through the ways its instruction has. -/

namespace Sys2Proof.Safety

open Sys2Proof.Machine

/-- Settles O30: both are one jump, and the bound on len keeps a valid target within 32 bits. -/
theorem relativeJumpsGoToValidTargetOrHalt : Obligations.RelativeJumpsGoToValidTargetOrHalt := by
  rintro r s _ rfl hlen
  exact ⟨⟨decodeWord_encode (.jmpf r), jump_valid_spec hlen, State.jump_invalid⟩,
    ⟨decodeWord_encode (.jmpb r), jump_valid_spec hlen, State.jump_invalid⟩⟩

/-- Settles O29. -/
theorem jmpGoesToValidTargetOrHalts : Obligations.JmpGoesToValidTargetOrHalts :=
  fun target _ => ⟨decodeWord_encode (.jmp target), jump_zext24_valid_spec,
    fun hv => State.jump_invalid (mt State.validTarget_zext24_iff.mp hv)⟩

/-- Settles O31, by cases on the flag. -/
theorem jeqJumpsOnlyOnTheFlag : Obligations.JeqJumpsOnlyOnTheFlag := by
  refine fun target s => ⟨decodeWord_encode (.jeq target), fun hf => ?_, fun ht hv => ?_, fun ht hv => ?_⟩
  · exact ⟨_, exec_jeq_of_flag_false hf, rfl, onlyPc_setPc s _⟩
  · rw [exec_jeq_of_flag_true ht]
    exact jump_zext24_valid_spec hv
  · rw [exec_jeq_of_flag_true ht]
    exact State.jump_invalid (mt State.validTarget_zext24_iff.mp hv)

/-- Settles O32, by the two checks of CALL in their order. -/
theorem callPushesNextAndJumpsOrHalts : Obligations.CallPushesNextAndJumpsOrHalts := by
  refine fun target s => ⟨decodeWord_encode (.call target), fun hv hd => ?_, fun hv => ?_, fun hv hd => ?_⟩
  · exact ⟨_, exec_call_of_room (State.validTarget_zext24_iff.mpr hv) hd, rfl, toNat_ofInt_zext24 target,
      onlyPcAndStack_push_setPc s _ _⟩
  · exact exec_call_of_invalid (mt State.validTarget_zext24_iff.mp hv)
  · exact exec_call_of_full (State.validTarget_zext24_iff.mpr hv) hd.ge

/-- Settles O33. -/
theorem retPopsOrHalts : Obligations.RetPopsOrHalts :=
  ⟨decodeWord_encode .ret, fun _ _ _ => ret_spec, fun _ => exec_ret_of_nil⟩

/-- Settles O34: what CALL pushed is what RET pops. -/
theorem retReturnsToTheWordAfterCall : Obligations.RetReturnsToTheWordAfterCall := by
  intro target s t u _ hcall hrun hstack
  obtain ⟨v, hret, hpc, hrest, -⟩ := ret_spec (hstack.trans (callStack_of_exec_call hcall hrun))
  exact ⟨v, hret, hpc, hrest⟩

end Sys2Proof.Safety
end

section
/-! What the instructions of 44_memory_ops.md leave: the bytes of the heap after a growth and after a store, the ways of
ALOC, and the frame of a heap write. The two loads are one access that writes a register, the two stores one access that
writes the heap. -/

namespace Sys2Proof.Machine

variable {s : State}

/-! ### Reading the heap after a growth -/

theorem Memory.read?_of_lt {m : Memory} {a : Nat} (ha : a < m.extent) : m.read? a = some (m.byte a) :=
  if_pos ha

/-- The bytes a canonical space gets when it grows read 0x00 (20_memory.md R37). -/
theorem Memory.read?_grow_new {m : Memory} (h : m.wf = true) {n a : Nat} (hlo : m.extent ≤ a)
    (hhi : a < (m.grow n).extent) : (m.grow n).read? a = some 0#8 := by
  rw [Memory.read?_of_lt hhi, Memory.byte_grow, Memory.byte_past_extent h hlo]

/-! ### The two ways of ALOC (44_memory_ops.md R103) -/

theorem exec_aloc_of_room {r : Reg} {n : Nat} (hr : sint (s.readReg r) = n)
    (hn : s.heap.extent + n ≤ Config.heapMax) :
    exec (.aloc r) s = .next ((s.setHeap (s.heap.grow n)).advance) := by
  rw [exec_aloc, execAloc, hr, Int.toNat_natCast, if_neg (by omega)]

theorem exec_aloc_of_illegal_size {r : Reg}
    (h : ¬ (0 ≤ sint (s.readReg r) ∧ s.heap.extent + sint (s.readReg r) ≤ Config.heapMax)) :
    exec (.aloc r) s = .next (s.halt .outOfBounds) := by
  rw [exec_aloc, execAloc, if_pos (by omega), State.raise_eq]

/-! ### The heap instructions at an address outside the extent (20_memory.md R36) -/

theorem exec_ldw_outside {a : Reg} (h : ¬ s.heap.inBounds (s.heapAddr a) 4) (d : Reg) :
    exec (.ldw a d) s = .next (s.halt .outOfBounds) := by
  rw [exec_ldw, execLdw, State.heapAccess_illegal h]

theorem exec_stw_outside {a : Reg} (h : ¬ s.heap.inBounds (s.heapAddr a) 4) (v : Reg) :
    exec (.stw v a) s = .next (s.halt .outOfBounds) := by
  rw [exec_stw, execStw, State.heapAccess_illegal h]

theorem exec_ldb_outside {a : Reg} (h : ¬ s.heap.inBounds (s.heapAddr a) 1) (d : Reg) :
    exec (.ldb a d) s = .next (s.halt .outOfBounds) := by
  rw [exec_ldb, execLdb, State.heapAccess_illegal h]

theorem exec_stb_outside {a : Reg} (h : ¬ s.heap.inBounds (s.heapAddr a) 1) (v : Reg) :
    exec (.stb v a) s = .next (s.halt .outOfBounds) := by
  rw [exec_stb, execStb, State.heapAccess_illegal h]

end Sys2Proof.Machine

namespace Sys2Proof.Safety

open Sys2Proof.Machine

variable {s : State}

/-! ### The bytes a store leaves -/

/-- Bytes written from an address on leave every byte outside them, and the extent. -/
theorem sameBytesOutside_setBytes (m : Memory) (a : Nat) (bs : List Byte) :
    SameBytesOutside a bs.length m (m.setBytes a bs) := by
  refine ⟨Memory.extent_setBytes m a bs, fun a' ha' => ?_⟩
  rw [Memory.read?, Memory.read?, Memory.extent_setBytes, Memory.byte_setBytes_outside m ha']

/-- A stored word leaves every byte outside its four. -/
theorem sameBytesOutside_writeWord (m : Memory) (a : Nat) (v : Word) : SameBytesOutside a 4 m (m.writeWord a v) :=
  sameBytesOutside_setBytes m a (bytesOfWord v)

/-- A stored byte leaves every other byte. -/
theorem sameBytesOutside_setByte (m : Memory) (a : Nat) (b : Byte) : SameBytesOutside a 1 m (m.setByte a b) :=
  sameBytesOutside_setBytes m a [b]

/-! ### A register write, a heap write and the accesses that make them -/

/-- A new heap followed by pc <- next has the frame of a heap write, whatever the heap. -/
theorem onlyHeap_setHeap_advance (m : Memory) (s : State) : OnlyHeap s (s.setHeap m).advance := by
  refine ⟨fun r => ?_, rfl, rfl, .refl _, rfl⟩
  rw [State.readReg_advance, State.readReg_setHeap]

/-- A register write followed by pc <- next leaves the value in the register, pc at the next word and nothing else
changed. -/
theorem writeReg_advance_spec (s : State) (d : Reg) (v : Word) :
    (s.writeReg d v).advance.readReg d = v ∧ (s.writeReg d v).advance.pc = s.pc + 4 ∧
      OnlyRegister d s (s.writeReg d v).advance := by
  refine ⟨?_, rfl, onlyRegister_writeReg_advance d v s⟩
  rw [State.readReg_advance, State.readReg_writeReg_self]

/-- A legal access that loads puts the value found at its address into the register, with pc to the next word and
nothing else changed. -/
theorem heapAccess_load_spec {a : Reg} {n : Nat} (d : Reg) (value : Nat → Word)
    (h : s.heap.inBounds (s.heapAddr a) n) :
    ∃ t, s.heapAccess a n (fun ea => (s.writeReg d (value ea)).advance) = .next t ∧
      t.readReg d = value (s.heapAddr a).toNat ∧ t.pc = s.pc + 4 ∧ OnlyRegister d s t :=
  ⟨_, State.heapAccess_legal h, writeReg_advance_spec s d _⟩

/-- A legal access that stores leaves the heap written at its address, with pc to the next word and nothing else
changed. -/
theorem heapAccess_store_spec {a : Reg} {n : Nat} (written : Nat → Memory)
    (h : s.heap.inBounds (s.heapAddr a) n) :
    ∃ t, s.heapAccess a n (fun ea => (s.setHeap (written ea)).advance) = .next t ∧
      t.heap = written (s.heapAddr a).toNat ∧ t.pc = s.pc + 4 ∧ OnlyHeap s t :=
  ⟨_, State.heapAccess_legal h, rfl, rfl, onlyHeap_setHeap_advance _ s⟩

end Sys2Proof.Safety
end

section
/-! The statements of 44_memory_ops.md: LOAD, ALOC, LDW, STW, LDB and STB (O35 to O40). Each word is the one the encoder
writes; ALOC goes through its two ways, and the other heap instructions through one access, legal or not. -/

namespace Sys2Proof.Safety

open Sys2Proof.Machine

/-- Settles O36, by the check of ALOC: with room the heap left is the old one, grown. -/
theorem alocGrowsTheHeapOrHalts : Obligations.AlocGrowsTheHeapOrHalts := by
  rintro r s _ rfl
  refine ⟨decodeWord_encode (.aloc r), fun ⟨hnonneg, hroom⟩ => ?_, exec_aloc_of_illegal_size⟩
  obtain ⟨n, hn⟩ := Int.eq_ofNat_of_zero_le hnonneg
  refine ⟨_, exec_aloc_of_room hn (by omega), ?_, fun a ha => ?_, fun hwf a hlo hhi => ?_, rfl,
    onlyHeap_setHeap_advance _ s⟩
  · rw [State.advance_heap, State.setHeap_heap, Memory.extent_grow, hn, Nat.cast_add]
  · exact Memory.read?_grow s.heap n ha
  · exact Memory.read?_grow_new hwf hlo hhi

/-- Settles O37: the word loaded is `wordOfBytes` of the four bytes at the address. -/
theorem ldwReadsBigEndianWordOrHalts : Obligations.LdwReadsBigEndianWordOrHalts := by
  rintro a d s _ rfl
  refine ⟨decodeWord_encode (.ldw a d), fun hin => ?_, fun hout => exec_ldw_outside hout d⟩
  obtain ⟨t, ht, hval, hpc, hframe⟩ := heapAccess_load_spec d s.heap.readWord hin
  refine ⟨t, ht, ?_, hpc, hframe⟩
  rw [hval, Memory.readWord, toNat_wordOfBytes]

/-- Settles O38: the heap left is the old one with the word written at the address. -/
theorem stwStoresBigEndianWordOrHalts : Obligations.StwStoresBigEndianWordOrHalts := by
  rintro v a s _ rfl
  refine ⟨decodeWord_encode (.stw v a), fun hin => ?_, fun hout => exec_stw_outside hout v⟩
  obtain ⟨t, ht, hheap, hpc, hframe⟩ := heapAccess_store_spec (s.heap.writeWord · (s.readReg v)) hin
  have he : (s.heapAddr a).toNat + 4 ≤ s.heap.extent := by omega
  refine ⟨t, ht, fun hwf k hk => ?_, ?_, hpc, hframe⟩ <;> rw [hheap]
  · exact ⟨_, Memory.read?_of_lt (by rw [Memory.extent_writeWord]; omega), Memory.toNat_byte_writeWord hwf he _ hk⟩
  · exact sameBytesOutside_writeWord s.heap _ _

/-- Settles O40: the heap left is the old one with the low byte written at the address. -/
theorem stbStoresLowByteOrHalts : Obligations.StbStoresLowByteOrHalts := by
  rintro v a s _ rfl
  refine ⟨decodeWord_encode (.stb v a), fun hin => ?_, fun hout => exec_stb_outside hout v⟩
  obtain ⟨t, ht, hheap, hpc, hframe⟩ := heapAccess_store_spec (s.heap.setByte · (lowByte (s.readReg v))) hin
  refine ⟨t, ht, fun hwf => ?_, ?_, hpc, hframe⟩ <;> rw [hheap]
  · refine ⟨_, Memory.read?_of_lt (by rw [Memory.extent_setByte]; omega), ?_⟩
    rw [Memory.byte_setByte_self hwf, toNat_lowByte]
  · exact sameBytesOutside_setByte s.heap _ _

/-- Settles O35. -/
theorem loadWritesSignedImmediate : Obligations.LoadWritesSignedImmediate := by
  intro d imm s
  obtain ⟨hval, hpc, hframe⟩ := writeReg_advance_spec s d (sext16 imm)
  refine ⟨decodeWord_encode (.load d imm), _, rfl, ?_, hpc, hframe⟩
  rw [hval, toInt_sext16]

/-- Settles O39. -/
theorem ldbReadsZeroExtendedByteOrHalts : Obligations.LdbReadsZeroExtendedByteOrHalts := by
  rintro a d s _ rfl
  refine ⟨decodeWord_encode (.ldb a d), fun hin => ?_, fun hout => exec_ldb_outside hout d⟩
  obtain ⟨t, ht, hval, hpc, hframe⟩ := heapAccess_load_spec d (fun ea => zext8 (s.heap.byte ea)) hin
  refine ⟨t, ht, ?_, hpc, hframe⟩
  rw [hval, toNat_zext8]

end Sys2Proof.Safety
end

section
/-! The statements of 45_system.md: HALT and NOP (O43, O44). Each word is the one the encoder writes; what follows the
one instruction is the halted step, or the run loop with one step of its budget taken. -/

namespace Sys2Proof.Machine

/-- A running machine at a NOP steps to the next word (45_system.md R109). -/
theorem step_nop {s : State} (hs : s.status = .running) (hi : decode s.fetch = .instr .nop) :
    step s = .next s.advance := by
  have hp : s.pc.toNat + 4 ≤ s.prog.extent := State.fetch_instr hi
  rw [step_eq_exec hs (by omega) hi, exec_nop, execNop]

end Sys2Proof.Machine

namespace Sys2Proof.Safety

open Sys2Proof.Machine

/-- Settles O43: HALT is the normal halt, and a halted machine stays as it is. -/
theorem haltHaltsNormally : Obligations.HaltHaltsNormally :=
  ⟨decodeWord_encode .halt, by decide, fun s => ⟨exec_halt s, step_halted rfl⟩⟩

/-- Settles O44: NOP writes pc alone, and its step is one turn of the run loop as `runLoopAsStated` gives it. -/
theorem nopOnlyAdvances : Obligations.NopOnlyAdvances := by
  refine ⟨decodeWord_encode .nop, fun s => ⟨s.advance, exec_nop s, rfl, onlyPc_setPc s s.nextPc⟩,
    fun m s hs hi hm => ?_⟩
  obtain ⟨-, -, budget_step, -⟩ := runLoopAsStated
  exact budget_step m s s.advance hs hm (step_nop hs hi)

end Sys2Proof.Safety
end

section
/-! The halts of 60_exceptions.md: the codes of the kinds, the decoder's check of a word against `RawWord.wellFormed`,
the step at a whole word, the kinds an instruction and a step can raise, and what a run ends in when its budget is used
up. The statements of 60_exceptions.md follow from these. -/

namespace Sys2Proof

variable {w : RawWord} {i : Instr} {b0 b1 b2 b3 : Byte}

/-! ### Well-formed words (30_encoding.md R53 to R55) -/

/-- No opcode above the table has a format (30_encoding.md R55). -/
theorem formatOf_illegalOpcode {op : Byte} (h : 0x19 < op.toNat) : formatOf op = none := by
  unfold formatOf
  split
  case h_27 => rfl
  all_goals omega

theorem RawWord.opcode_le_of_wellFormed (h : w.wellFormed = true) : w.b0.toNat ≤ 0x19 := by
  by_contra hop
  simp [RawWord.wellFormed, formatOf_illegalOpcode (Nat.lt_of_not_le hop)] at h

/-- Under a legal opcode, being well formed is the one check that decides whether a word decodes. -/
theorem checked_decodeWord (hop : b0.toNat ≤ 0x19) :
    Checked (RawWord.mk b0 b1 b2 b3).wellFormed (decodeWord (wordOfBytes b0 b1 b2 b3)) := by
  obtain ⟨f, hf, hd⟩ := decodeWord_decodesBy (w := wordOfBytes b0 b1 b2 b3) (by rwa [opcodeField_wordOfBytes])
  rw [opcodeField_wordOfBytes] at hf
  simpa [RawWord.wellFormed, hf] using hd.checked (r := ⟨b0, b1, b2, b3⟩) (by simp)

theorem encodeRaw_of_decodeWord (h : decodeWord (wordOfBytes b0 b1 b2 b3) = .instr i) :
    encodeRaw i = ⟨b0, b1, b2, b3⟩ := by
  simp [encodeRaw, encode_of_decodeWord h]

end Sys2Proof

namespace Sys2Proof.Machine

open Sys2Proof.Safety

variable {s t : State} {i : Instr} {k : HaltKind}

/-! ### The codes of the halt kinds -/

/-- The kinds in the order of the table of 60_exceptions.md R111. -/
def haltTable : List HaltKind :=
  [.normal, .illegalOpcode, .truncatedInstruction, .illegalOperand, .divisionByZero, .jumpOutOfBounds,
    .callStackUnderflow, .callStackOverflow, .outOfBounds, .instructionLimitExceeded]

/-- A kind's code is its place in the table. -/
theorem haltTable_getElem?_code (k : HaltKind) : haltTable[k.code]? = some k := by
  cases k <;> rfl

theorem HaltKind.code_injective : Function.Injective HaltKind.code := by
  intro j k h
  have hk := haltTable_getElem?_code k
  rw [← h, haltTable_getElem?_code j] at hk
  exact Option.some.inj hk

theorem HaltKind.code_eq_zero_iff : k.code = 0 ↔ k = .normal :=
  HaltKind.code_injective.eq_iff (b := .normal)

theorem HaltKind.isError_iff : k.isError = true ↔ 1 ≤ k.code := by
  rw [Nat.one_le_iff_ne_zero, ne_eq, HaltKind.code_eq_zero_iff, HaltKind.isError, decide_eq_true_iff]

/-! ### The step at a whole word (60_exceptions.md R114) -/

/-- With four bytes left, what is decoded is the word they make. -/
theorem State.decode_fetch_full (h : s.pc.toNat + 4 ≤ s.prog.extent) :
    decode s.fetch = decodeWord (wordOfBytes (s.prog.byte s.pc.toNat) (s.prog.byte (s.pc.toNat + 1))
      (s.prog.byte (s.pc.toNat + 2)) (s.prog.byte (s.pc.toNat + 3))) := by
  rw [State.fetch_full h, decode]

/-! ### The kinds an instruction and a step raise (60_exceptions.md R115, R116) -/

/-- An instruction that halts a running machine has failed one of its own checks, or is HALT: one that completes
leaves the machine running. -/
theorem exec_halt_kind (hs : s.status = .running) (h : exec i s = .next t) (ht : t.status = .halted k) :
    k ∈ ownChecks i ∨ (i = .halt ∧ k = .normal) := by
  rcases exec_cases h with hc | ⟨j, hj, rfl⟩ | ⟨hi, rfl⟩
  · simp [hc.status_eq, hs] at ht
  · cases ht
    exact .inl hj
  · cases ht
    exact .inr ⟨hi, rfl⟩

theorem instructionLimitExceeded_notMem_ownChecks (i : Instr) : .instructionLimitExceeded ∉ ownChecks i := by
  unfold ownChecks
  split <;> simp

/-- The budget halt is never raised inside a step (60_exceptions.md R116). -/
theorem status_ne_limit_of_step (hs : s.status = .running) (h : step s = .next t) :
    t.status ≠ .halted .instructionLimitExceeded := by
  intro ht
  rcases step_cases h with ⟨k, hk, -⟩ | ⟨-, -, rfl⟩ | ⟨e, -, -, -, rfl⟩ | ⟨i, -, -, -, hx⟩
  · simp [hs] at hk
  · cases ht
  · cases e <;> cases ht
  · rcases exec_halt_kind hs hx ht with hmem | ⟨-, hk⟩
    · exact instructionLimitExceeded_notMem_ownChecks i hmem
    · cases hk

/-! ### A run that uses up its budget (60_exceptions.md R121) -/

/-- The plain iteration of the step takes its first step first. -/
theorem core_run_succ {u : State} (n : Nat) (h : step s = .next u) :
    Host.Core.run core (n + 1) s = Host.Core.run core n u := by
  have hcore : core.step s = .next u := h
  simp only [Host.Core.run, hcore]

/-- A run that ends in the budget halt has taken every step of its budget, was still running then, and has set the
status alone: no step raises this kind, so none of them ended the run. -/
theorem core_run_of_runLimited_limit {n : Nat} (hs : s.status = .running) (h : runLimited n s = .next t)
    (ht : t.status = .halted .instructionLimitExceeded) :
    ∃ u, Host.Core.run core n s = .next u ∧ u.status = .running ∧ t = u.halt .instructionLimitExceeded := by
  induction n generalizing s with
  | zero =>
    rw [runLimited_zero hs] at h
    cases h
    exact ⟨s, rfl, hs, rfl⟩
  | succ n ih =>
    obtain ⟨v, hv, hr⟩ := runLimited_succ hs h
    rw [core_run_succ n hv]
    cases hvs : v.status with
    | halted k =>
      rw [runLimited_halted n hvs] at hr
      cases hr
      exact absurd ht (status_ne_limit_of_step hs hv)
    | running => exact ih hvs hr

end Sys2Proof.Machine
end

section
/-! The statements of 60_exceptions.md: the order of a step's checks (O7), the halts an instruction may raise (O10), the
budget halt (O52) and the codes of the halt kinds (O45). -/

namespace Sys2Proof.Safety

open Sys2Proof.Machine

/-- Settles O7: with fewer than four bytes left the fetch is short; with four, the decoder's answer is the check of
`checked_decodeWord`, and the step is the decode error's halt or `exec`. -/
theorem stepChecksInOrder : Obligations.StepChecksInOrder := by
  refine fun s => ⟨fun _ => step_halted, step_end, fun hs hp hshort => ?_, ?_⟩
  · exact step_of_decode_error hs hp (decode_short (State.fetch_short hshort))
  · rintro hs hfull w rfl
    have hp : s.pc.toNat < s.prog.extent := by omega
    have hdecode := State.decode_fetch_full hfull
    refine ⟨fun hop => ?_, fun hop hbad => ?_, fun hgood => ?_⟩
    · exact step_of_decode_error hs hp (hdecode.trans (decodeWord_illegalOpcode (by rwa [opcodeField_wordOfBytes])))
    · exact step_of_decode_error hs hp (hdecode.trans ((checked_decodeWord hop).rejects hbad))
    · obtain ⟨i, hi⟩ := (checked_decodeWord (RawWord.opcode_le_of_wellFormed hgood)).accepts hgood
      exact ⟨i, encodeRaw_of_decodeWord hi, step_eq_exec hs hp (hdecode.trans hi)⟩

/-- Settles O10: CALL makes its target check first, so an invalid target decides whatever the depth. -/
theorem instructionsRaiseOnlyTheirOwnHalts : Obligations.InstructionsRaiseOnlyTheirOwnHalts :=
  ⟨fun _ _ _ _ => exec_halt_kind, instructionLimitExceeded_notMem_ownChecks,
    fun _ _ hinvalid _ => exec_call_of_invalid (mt State.validTarget_zext24_iff.mp hinvalid)⟩

/-- Settles O52, by induction on the budget. -/
theorem budgetHaltKeepsTheLastState : Obligations.BudgetHaltKeepsTheLastState := by
  intro m s t hs hr ht
  obtain ⟨u, hrun, hu, htu⟩ := core_run_of_runLimited_limit hs hr ht
  exact ⟨u, hrun, hu, htu, step_halted ht⟩

/-- Settles O45: the codes are the places in the table, so no two kinds share one and only Normal has 0. -/
theorem haltCodesAsTabulated : Obligations.HaltCodesAsTabulated :=
  ⟨rfl, fun _ _ h => HaltKind.code_injective h, fun _ => HaltKind.isError_iff⟩

end Sys2Proof.Safety
end

section
/-! What Load and reset leave (70_reset_and_hazards.md): the cleared registers, an empty address space, the loaded
program byte for byte, and the checks of Load one after the other. The statements of 70_reset_and_hazards.md follow
from these. -/

namespace Sys2Proof.Machine

variable {s : State} {b0 b1 b2 b3 v : Byte} {stream : List Byte}

/-! ### The cleared parts of the state -/

/-- Power-on, Load and reset clear the registers all at once (70_reset_and_hazards.md R128, R130, R132). -/
theorem State.readReg_of_regs_eq_replicate (h : s.regs = Vector.replicate 32 0) (r : Reg) : s.readReg r = 0#32 := by
  rw [State.readReg, h, Vector.getElem_replicate]
  rfl

/-- The empty space has no address. -/
@[simp] theorem Memory.read?_empty (a : Nat) : Memory.empty.read? a = none := if_neg (Nat.not_lt_zero a)

/-- The program a Load leaves holds the bytes behind the five of the header (70_reset_and_hazards.md R130). -/
theorem Memory.read?_ofBytes_drop (bin : List Byte) (k a : Nat) :
    (Memory.ofBytes (bin.drop k)).read? a = bin[a + k]? := by
  rw [Memory.read?_ofBytes, List.getElem?_drop, Nat.add_comm]

/-! ### The checks of Load (70_reset_and_hazards.md R131) -/

theorem checkBinary_of_short {bin : List Byte} (h : bin.length < 5) : checkBinary bin = some .tooShort :=
  if_pos h

/-- A binary with a whole header passes the length check, and three checks are left. -/
theorem checkBinary_header (b0 b1 b2 b3 v : Byte) (stream : List Byte) :
    checkBinary (b0 :: b1 :: b2 :: b3 :: v :: stream) =
      if [b0, b1, b2, b3] ≠ Config.magic then some .badMagic
      else if v ≠ Config.isaVersion then some .badVersion
      else if Config.maxProgramLen < stream.length then some .tooLong
      else none := by
  simp [checkBinary]

theorem checkBinary_of_magic_ne (hm : [b0, b1, b2, b3] ≠ Config.magic) :
    checkBinary (b0 :: b1 :: b2 :: b3 :: v :: stream) = some .badMagic := by
  rw [checkBinary_header, if_pos hm]

theorem checkBinary_of_version_ne (hm : [b0, b1, b2, b3] = Config.magic) (hv : v ≠ Config.isaVersion) :
    checkBinary (b0 :: b1 :: b2 :: b3 :: v :: stream) = some .badVersion := by
  rw [checkBinary_header, if_neg (not_not_intro hm), if_pos hv]

/-- Behind the right header the length of the stream decides. -/
theorem checkBinary_of_header_eq (hm : [b0, b1, b2, b3] = Config.magic) (hv : v = Config.isaVersion) :
    checkBinary (b0 :: b1 :: b2 :: b3 :: v :: stream) =
      if Config.maxProgramLen < stream.length then some .tooLong else none := by
  rw [checkBinary_header, if_neg (not_not_intro hm), if_neg (not_not_intro hv)]

end Sys2Proof.Machine
end

section
/-! The statements of 70_reset_and_hazards.md: power-on (O46), Load (O47, O48) and reset (O49). -/

namespace Sys2Proof.Safety

open Sys2Proof.Machine

/-- Settles O47: Load of an accepted binary is `loadStream` of the bytes behind the header. -/
theorem loadReplacesProgramAndKeepsHeap : Obligations.LoadReplacesProgramAndKeepsHeap := by
  intro s bin hbin
  rw [s.load_of_checkBinary_none hbin]
  have hlen : (s.loadStream (bin.drop 5)).len = bin.length - 5 := List.length_drop
  exact ⟨rfl, hlen, Memory.read?_ofBytes_drop bin 5, State.readReg_of_regs_eq_replicate rfl, rfl, rfl, rfl, rfl, rfl⟩

/-- Settles O46: with no program pc is at the end of the stream, so the first step is the end-of-stream halt. -/
theorem powerOnStateAndItsFirstStep : Obligations.PowerOnStateAndItsFirstStep :=
  ⟨State.readReg_of_regs_eq_replicate rfl, rfl, rfl, rfl, rfl, rfl, rfl, step_end rfl rfl⟩

/-- Settles O48: a check that fails is the error Load returns with the state unchanged. -/
theorem loadChecksInOrder : Obligations.LoadChecksInOrder := by
  refine fun s bin => ⟨fun hshort => s.load_of_checkBinary_some (checkBinary_of_short hshort), ?_⟩
  rintro b0 b1 b2 b3 v stream rfl
  refine ⟨fun hm => ?_, fun hm hv => ?_, fun hm hv hlong => ?_, fun hm hv hfits => ?_⟩
  · exact s.load_of_checkBinary_some (checkBinary_of_magic_ne hm)
  · exact s.load_of_checkBinary_some (checkBinary_of_version_ne hm hv)
  · exact s.load_of_checkBinary_some ((checkBinary_of_header_eq hm hv).trans (if_pos hlong))
  · exact (checkBinary_of_header_eq hm hv).trans (if_neg (Nat.not_lt_of_le hfits))

/-- Settles O49. -/
theorem resetClearsAllButTheProgram : Obligations.ResetClearsAllButTheProgram :=
  fun _ => ⟨State.readReg_of_regs_eq_replicate rfl, rfl, rfl, rfl, rfl, Memory.read?_empty, rfl, rfl⟩

end Sys2Proof.Safety
end
